-- ==== Sys2Proof/Word.lean ====
section
/-! DEFINITION. The values of the block whose width no parameter of `00_scope.md` R7 sets: bytes of a
datagram, 16-bit samples, 64-bit records. -/

namespace Sys2Proof

/-- One datagram byte (`00_scope.md` R9). -/
abbrev Byte := BitVec 8

/-- One packed 5/6/5 colour sample, after `BE16` assembly (`30_encoding.md` R64). -/
abbrev Sample := BitVec 16

/-- One record of the `RESULT` channel (`60_exceptions.md` R131). -/
abbrev Record := BitVec 64

/-- A datagram: the finite byte sequence `D[0] .. D[L-1]` (`00_scope.md` R9, `30_encoding.md` R56). -/
abbrev Datagram := List Byte

end Sys2Proof
end

