-- ==== Sys2Proof/Config.lean ====
section
/-! DEFINITION. The implementation parameters of `00_scope.md` R7, each with the spec's default. They are
fixed before reset and no operation writes them (`10_state.md` R26). The host's `step` takes a State and
nothing else, so a State carries the parameters it runs under (log entry 1); the model has no free value,
because the spec leaves no value open that a step could read (log entry 15). -/

namespace Sys2Proof

/-- The parameters of `00_scope.md` R7 and their default values. A value whose width is a parameter (a header
word, the counter, a cell) is a natural number, and the operation that makes it reduces it to that width
(log entry 2). -/
structure Config where
  /-- `FRAME_W`: columns of a frame. -/
  frameW : Nat := 640
  /-- `FRAME_H`: rows of a frame. -/
  frameH : Nat := 480
  /-- `ROWS_PER_FRAME`: the decoded-row count that triggers a publish. -/
  rowsPerFrame : Nat := 480
  /-- `MARKER_FRAME_START`. -/
  markerFrameStart : Nat := 0xDEADBEEF
  /-- `MARKER_PIXEL_ROW`. -/
  markerPixelRow : Nat := 0xBEEFBEEF
  /-- `MARKER_FRAME_END`. -/
  markerFrameEnd : Nat := 0xDEADDEAD
  /-- `FRAME_END_EN`: the frame-end marker is an operation (`90_conflicts.md` C2). -/
  frameEndEn : Bool := true
  /-- `HDR_LEN`: byte offset of the first sample. -/
  hdrLen : Nat := 16
  /-- `OFF_ROW`: byte offset of `rowIndex + 1`. -/
  offRow : Nat := 4
  /-- `OFF_COL`: byte offset of `columnCount + 1`. -/
  offCol : Nat := 8
  /-- `OFF_SIZE`: byte offset of `rawSizeField`. -/
  offSize : Nat := 12
  /-- `SIZE_MULT`: `sampleCount = rawSizeField × SIZE_MULT`. -/
  sizeMult : Nat := 2
  /-- `MAX_DGRAM_LEN`: the longest datagram the host presents. -/
  maxDgramLen : Nat := 65535
  /-- The counter width: the width in bits of `ROWS_WRITTEN` and of every header word. -/
  counterWidth : Nat := 32
  /-- The channel width: the width in bits of each of R, G and B in a cell. -/
  channelWidth : Nat := 8
  deriving DecidableEq, Repr

namespace Config

/-- Every parameter at the value `00_scope.md` R7 shows. -/
def default : Config := {}

/-- The bytes of one header word: 4 at the default width (`20_memory.md` R42). -/
def wordBytes (c : Config) : Nat := c.counterWidth / 8

/-- How many values a header word or the counter has: `2^32` at the default width (`00_scope.md` R8). -/
def wordRange (c : Config) : Nat := 2 ^ c.counterWidth

/-- The greatest value of a channel: 255 at the default width (`40_color_converter.md` R75). -/
def channelMax (c : Config) : Nat := 2 ^ c.channelWidth - 1

/-- Two header words of the given size that share no byte (`20_memory.md` R44: each byte is read at one
width). -/
abbrev apart (size x y : Nat) : Prop := x + size ≤ y ∨ y + size ≤ x

/-- What makes a setting of the parameters legal. R7 requires the first three lines and the distinct markers.
The other relations are read from the rules (log entry 4): both dimensions and the row count are unsigned
values of the counter's width (`42_scanline_decoder.md` R98, `43_frame_assembler.md` R101), and so are the
markers (`20_memory.md` R42); a header word is a whole number of bytes (R42), and the counter and the
rejected-pixel count fit the 32 bits that show them (`10_state.md` R27, `42_scanline_decoder.md` R97); a
channel is wide enough to be 0 only at 0 (`40_color_converter.md` R76); the three words lie after the marker,
inside the header, and share no byte (R44, `30_encoding.md` R57, R60). -/
structure Wf (c : Config) : Prop where
  rowsPos : 1 ≤ c.rowsPerFrame
  widthPos : 1 ≤ c.frameW
  heightPos : 1 ≤ c.frameH
  startNeRow : c.markerFrameStart ≠ c.markerPixelRow
  startNeEnd : c.markerFrameStart ≠ c.markerFrameEnd
  rowNeEnd : c.markerPixelRow ≠ c.markerFrameEnd
  wordPos : 1 ≤ c.wordBytes
  wordWhole : c.counterWidth = 8 * c.wordBytes
  wordShown : c.counterWidth ≤ 32
  channelFine : 6 ≤ c.channelWidth
  widthFits : c.frameW < c.wordRange
  heightFits : c.frameH < c.wordRange
  rowsFit : c.rowsPerFrame < c.wordRange
  startFits : c.markerFrameStart < c.wordRange
  rowFits : c.markerPixelRow < c.wordRange
  endFits : c.markerFrameEnd < c.wordRange
  rowAfterMarker : c.wordBytes ≤ c.offRow
  colAfterMarker : c.wordBytes ≤ c.offCol
  sizeAfterMarker : c.wordBytes ≤ c.offSize
  rowInHeader : c.offRow + c.wordBytes ≤ c.hdrLen
  colInHeader : c.offCol + c.wordBytes ≤ c.hdrLen
  sizeInHeader : c.offSize + c.wordBytes ≤ c.hdrLen
  rowColApart : apart c.wordBytes c.offRow c.offCol
  rowSizeApart : apart c.wordBytes c.offRow c.offSize
  colSizeApart : apart c.wordBytes c.offCol c.offSize

/-- The header layout the spec draws (`30_encoding.md` R60): 32-bit words at offsets 4, 8, 12 and the first
sample at 16. -/
abbrev specLayout (c : Config) : Prop :=
  c.counterWidth = 32 ∧ c.offRow = 4 ∧ c.offCol = 8 ∧ c.offSize = 12 ∧ c.hdrLen = 16

end Config

end Sys2Proof
end

