-- ==== Sys2Proof/Syntax.lean ====
section
/-! DEFINITION. The operations of `spec/opcode_table.json`, one constructor per row. The block is no
processor (`00_scope.md` R2): an "instruction" is one input event, that is a datagram selected by its
marker or an interface event, or one of the three sub-operations the table also lists. -/

namespace Sys2Proof

/-- The classifier's verdict (`41_classifier.md` R79, R86). -/
inductive PacketKind where
  | frameStart
  | pixelRow
  | unknown
  | frameEnd
  deriving DecidableEq, Repr

/-- The body of a pixel-row datagram after its marker (`30_encoding.md` R60, R65). -/
inductive RowBody where
  /-- Too short for the header (`42_scanline_decoder.md` R88): every byte after the marker. -/
  | short (rest : List Byte)
  /-- The three header words as the wire carries them, each an unsigned value (R60), and every byte from `HDR_LEN` on. -/
  | full (rowRaw colRaw sizeRaw : Nat) (payload : List Byte)
  deriving DecidableEq, Repr

/-- One constructor per row of `spec/opcode_table.json`. -/
inductive Instr where
  /-- `FRAME_START` (R104); the bytes from offset 4 on are ignored (R58). -/
  | frameStart (ignored : List Byte)
  /-- `PIXEL_ROW` (R87). -/
  | pixelRow (body : RowBody)
  /-- `FRAME_END` (R105); the bytes from offset 4 on are ignored (R59). -/
  | frameEnd (ignored : List Byte)
  /-- `UNKNOWN` (R84, R118): a marker outside the map. -/
  | unknown (marker : Nat) (ignored : List Byte)
  /-- `UNKNOWN_SHORT` (R80): a datagram of fewer than 4 bytes. -/
  | unknownShort (bytes : List Byte)
  /-- `STOP` (R119). -/
  | stop
  /-- `CLOSE` (R120). -/
  | close
  /-- `ACQUIRE` (R112). -/
  | acquire
  /-- `RESET` (R144). -/
  | reset
  /-- `CONVERT` (R73), a sub-operation no input selects. -/
  | convert (sample : Sample)
  /-- `ROW_DONE` (R101), a sub-operation no input selects. -/
  | rowDone
  /-- `PUBLISH` (R106), a sub-operation no input selects. -/
  | publish
  deriving DecidableEq, Repr

/-- The verdict of the classifier on the datagram that carries an operation; none for an event or a
sub-operation, which no datagram carries (`30_encoding.md` R71). -/
def Instr.kind? : Instr → Option PacketKind
  | .frameStart _ => some .frameStart
  | .pixelRow _ => some .pixelRow
  | .frameEnd _ => some .frameEnd
  | .unknown _ _ => some .unknown
  | .unknownShort _ => some .unknown
  | .stop => none
  | .close => none
  | .acquire => none
  | .reset => none
  | .convert _ => none
  | .rowDone => none
  | .publish => none

end Sys2Proof
end

