-- ==== Sys2Proof/WellFormed.lean ====
section
/-! DEFINITION. Which operations a datagram of at most `MAX_DGRAM_LEN` bytes can carry, under given
parameters: the format conditions of `30_encoding.md` R58 to R60, R66 and R68. -/

namespace Sys2Proof

/-- A marker of the marker map (`30_encoding.md` R66): one that is not reserved (R67). -/
def Config.recognised (c : Config) (m : Nat) : Bool :=
  m == c.markerFrameStart || m == c.markerPixelRow || (c.frameEndEn && m == c.markerFrameEnd)

/-- A value one header word can carry (`20_memory.md` R42). -/
def Config.isWord (c : Config) (v : Nat) : Bool := decide (v < c.wordRange)

/-- The format conditions of a pixel-row datagram: `short` stands for `L < HDR_LEN` only
(R65, `42_scanline_decoder.md` R88), the header carries three words (R60), and no datagram is longer than
`MAX_DGRAM_LEN` (R56). -/
def RowBody.wf (c : Config) : RowBody → Bool
  | .short rest =>
    decide (c.wordBytes + rest.length < c.hdrLen) && decide (c.wordBytes + rest.length ≤ c.maxDgramLen)
  | .full rowRaw colRaw sizeRaw payload =>
    c.isWord rowRaw && c.isWord colRaw && c.isWord sizeRaw &&
      decide (c.hdrLen + payload.length ≤ c.maxDgramLen)

/-- An operation as some datagram can carry it; an event or a sub-operation has no format to break. -/
def Instr.wf (c : Config) : Instr → Bool
  | .frameStart ignored => decide (c.wordBytes + ignored.length ≤ c.maxDgramLen)
  | .pixelRow body => body.wf c
  | .frameEnd ignored => c.frameEndEn && decide (c.wordBytes + ignored.length ≤ c.maxDgramLen)
  | .unknown marker ignored =>
    c.isWord marker && !c.recognised marker && decide (c.wordBytes + ignored.length ≤ c.maxDgramLen)
  | .unknownShort bytes => decide (bytes.length < c.wordBytes) && decide (bytes.length ≤ c.maxDgramLen)
  | .stop => true
  | .close => true
  | .acquire => true
  | .reset => true
  | .convert _ => true
  | .rowDone => true
  | .publish => true

end Sys2Proof
end

