-- ==== Sys2Proof/Decode.lean ====
section
/-! DEFINITION. From the bytes of a datagram to its operation (`30_encoding.md`, `41_classifier.md`), and
back. Decoding is total on any bytes; the one rejection is by name, a datagram longer than `MAX_DGRAM_LEN`,
which the host never presents (`93_implementation_defined.md` U9). -/

namespace Sys2Proof

/-! ### The byte-access primitives of `00_scope.md` R9 -/

/-- The unsigned value of bytes in wire order, the least significant first (`20_memory.md` R42). -/
def leNat : List Byte → Nat
  | [] => 0
  | b :: rest => b.toNat + 256 * leNat rest

/-- The `n` low bytes of a value, the least significant first: `v[7:0] v[15:8] ...` (`30_encoding.md` R72). -/
def leBytes : Nat → Nat → List Byte
  | 0, _ => []
  | n + 1, v => BitVec.ofNat 8 v :: leBytes n (v / 256)

/-- The little-endian word of `n` bytes at `off`, defined only for `off + n ≤ L`. -/
def leWord (n : Nat) (D : List Byte) (off : Nat) : Option Nat :=
  if off + n ≤ D.length then some (leNat ((D.drop off).take n)) else none

/-- A header word: `LE32(D, off)` at the default width (R9, `20_memory.md` R42; log entry 2). -/
def headerWord (c : Config) (D : Datagram) (off : Nat) : Option Nat := leWord c.wordBytes D off

/-- `{hi, lo}`: the byte pair of a sample, its high byte at the lower offset (`20_memory.md` R43). -/
def sampleOfBytes (hi lo : Byte) : Sample := hi ++ lo

/-- `BE16(D, off)`, defined only for `off + 2 ≤ L`. -/
def be16 (D : List Byte) (off : Nat) : Option Sample :=
  match D.drop off with
  | hi :: lo :: _ => some (sampleOfBytes hi lo)
  | _ => none

/-- The two bytes `s[15:8] s[7:0]` (`30_encoding.md` R72). -/
def be16Bytes (s : Sample) : List Byte := [s.extractLsb' 8 8, s.extractLsb' 0 8]

/-! ### CLASSIFY -/

/-- The marker map on a marker (`30_encoding.md` R66; the compares of `41_classifier.md` R79). -/
def kindOfMarker (c : Config) (m : Nat) : PacketKind :=
  if m = c.markerFrameStart then .frameStart
  else if m = c.markerPixelRow then .pixelRow
  else if c.frameEndEn = true ∧ m = c.markerFrameEnd then .frameEnd
  else .unknown

/-- CLASSIFY (`41_classifier.md` R79): a datagram shorter than a marker (`L < 4`) is decided before any marker
compare (R80). -/
def classify (c : Config) (D : Datagram) : PacketKind :=
  match headerWord c D 0 with
  | none => .unknown
  | some m => kindOfMarker c m

/-! ### Decode -/

/-- Why no operation is read from a byte sequence. -/
inductive DecodeError where
  /-- `L > MAX_DGRAM_LEN`: the host never presents such a datagram (R30, R56, U9 "refuse"). -/
  | longerThanMax
  deriving DecidableEq, Repr

/-- The body of a pixel-row datagram `D`: `short` when the header cannot be read
(`42_scanline_decoder.md` R88), else its three words (R89) and the bytes from `HDR_LEN` on. -/
def decodeRowBody (c : Config) (D : Datagram) : RowBody :=
  if D.length < c.hdrLen then .short (D.drop c.wordBytes)
  else
    match headerWord c D c.offRow, headerWord c D c.offCol, headerWord c D c.offSize with
    | some rowRaw, some colRaw, some sizeRaw => .full rowRaw colRaw sizeRaw (D.drop c.hdrLen)
    | _, _, _ => .short (D.drop c.wordBytes)

/-- The operation of a datagram whose marker is `m` (`30_encoding.md` R66). -/
def decodeMarked (c : Config) (m : Nat) (D : Datagram) : Instr :=
  match kindOfMarker c m with
  | .frameStart => .frameStart (D.drop c.wordBytes)
  | .pixelRow => .pixelRow (decodeRowBody c D)
  | .frameEnd => .frameEnd (D.drop c.wordBytes)
  | .unknown => .unknown m (D.drop c.wordBytes)

/-- The operation of a datagram (`30_encoding.md` R66 to R70). -/
def decode (c : Config) (D : Datagram) : Except DecodeError Instr :=
  if c.maxDgramLen < D.length then .error .longerThanMax
  else
    match headerWord c D 0 with
    | none => .ok (.unknownShort D)
    | some m => .ok (decodeMarked c m D)

/-! ### Encode -/

/-- The wire bytes of a header word. -/
def wordWire (c : Config) (v : Nat) : List Byte := leBytes c.wordBytes v

/-- `D` with `bytes` at offset `off`, in place of as many of its own. -/
def putBytes (off : Nat) (bytes D : List Byte) : List Byte :=
  D.take off ++ bytes ++ D.drop (off + bytes.length)

/-- The `HDR_LEN` header bytes of a pixel-row datagram (`30_encoding.md` R60). -/
def rowHeader (c : Config) (rowRaw colRaw sizeRaw : Nat) : List Byte :=
  putBytes c.offSize (wordWire c sizeRaw) (putBytes c.offCol (wordWire c colRaw)
    (putBytes c.offRow (wordWire c rowRaw)
      (wordWire c c.markerPixelRow ++ List.replicate (c.hdrLen - c.wordBytes) 0)))

/-- The datagram that carries a well-formed operation, by formats FS, FE and PR of `30_encoding.md`
R57 to R60; none for an event or a sub-operation, which have no byte encoding (R71). -/
def encode (c : Config) : Instr → Option Datagram
  | .frameStart ignored => some (wordWire c c.markerFrameStart ++ ignored)
  | .pixelRow (.short rest) => some (wordWire c c.markerPixelRow ++ rest)
  | .pixelRow (.full rowRaw colRaw sizeRaw payload) => some (rowHeader c rowRaw colRaw sizeRaw ++ payload)
  | .frameEnd ignored => some (wordWire c c.markerFrameEnd ++ ignored)
  | .unknown marker ignored => some (wordWire c marker ++ ignored)
  | .unknownShort bytes => some bytes
  | .stop => none
  | .close => none
  | .acquire => none
  | .reset => none
  | .convert _ => none
  | .rowDone => none
  | .publish => none

/-! ### The words of the opcode table -/

/-- The datagram of a table row whose `nbits` bits are `w`. A row with a marker is followed by zero bytes
up to the default header, so that a pixel row has its three header words (all 0); fewer than 32 bits are no
marker and stay a short datagram. -/
def tableDatagram (nbits w : Nat) : Datagram :=
  if nbits < 32 then leBytes (nbits / 8) (w % 2 ^ nbits)
  else leBytes (max (nbits / 8) 16) (w % 2 ^ nbits)

/-- The operation the decoder reads from a table row's word, under the default parameters. -/
def decodeTableWord (nbits w : Nat) : Option Instr :=
  match decode Config.default (tableDatagram nbits w) with
  | .ok i => some i
  | .error _ => none

end Sys2Proof
end

