-- ==== Sys2Proof/Machine/State.lean ====
section
/-! DEFINITION. The state of the block: the six elements of `10_state.md` R15, the parameters it runs under,
the offers on its input channels, and what it has put on its output channels (`70_reset_and_hazards.md`
R157). Plain data throughout. -/

namespace Sys2Proof.Machine

/-- `RUN_STATE` (`10_state.md` R18). -/
inductive RunState where
  | running
  | stopped
  deriving DecidableEq, Repr

/-- `ASM_STATE` (`10_state.md` R19). -/
inductive AsmState where
  | accumulating
  | publishing
  deriving DecidableEq, Repr

/-- A frame store: pairs of a cell index `p = row × FRAME_W + col` (`20_memory.md` R40) and the cell's value,
the indexes strictly rising, no value equal to what an unlisted cell reads as (`Memory.unlisted`). The unit
is the whole cell `{R, G, B}`, 24 bits at the default channel width, the smallest thing any operation reads
or writes (R38, R39, R46; log entries 2 and 3). -/
abbrev Memory := List (Nat × Nat)

/-- One offer on an input channel (`10_state.md` R29): a datagram on `DG_IN`, STOP or CLOSE on `CTRL_IN`, a
request on `ACQ`, or `RESET`. -/
inductive Offer where
  | datagram (bytes : Datagram)
  | stop
  | close
  | acquire
  | reset
  deriving DecidableEq, Repr

/-- What a sub-operation hands back to its caller (`40_color_converter.md` R73, `43_frame_assembler.md`
R101), kept only when `exec` runs the sub-operation on its own (log entry 8). -/
inductive SubReturn where
  | nothing
  | cell (value : Nat)
  | published (b : Bool)
  deriving DecidableEq, Repr

/-- The machine. The first group is the spec's state (R15), the second its parameters (R7), the third the
host's and the consumer's side of the input channels, the fourth the observation of a run (R157). -/
structure State where
  /-- `RUN_STATE` (R18). -/
  runState : RunState
  /-- `ASM_STATE` (R19). -/
  asmState : AsmState
  /-- `ROWS_WRITTEN` (R20), unsigned, of the counter's width (`00_scope.md` R7). -/
  rowsWritten : Nat
  /-- `WORKING` (R22). -/
  working : Memory
  /-- `PUBLISHED` (R23); none is the spec's "no value" before the first publish (R37). -/
  published : Option Memory
  /-- `PUB_VALID` (R24). -/
  pubValid : Bool
  /-- The parameters of `00_scope.md` R7; no step changes them (R26; log entry 1). -/
  cfg : Config
  /-- The offers still to come, in the order they are made (R17, R30; log entry 5). -/
  inputs : List Offer
  /-- The index of the next event, which R17 lets a model use as its pc. -/
  eventIndex : Nat
  /-- Datagrams offered while `STOPPED`: not consumed, they stay with the host (R121; log entry 6). -/
  held : List Datagram
  /-- The records of the `RESULT` channel, oldest first (R34, R131). -/
  results : List Record
  /-- The frames `FRAME_READY` carried, oldest first (R33, R113). -/
  frameReady : List Memory
  /-- What each ACQUIRE returned, oldest first; none is `NULL` (R32, R112). -/
  acquired : List (Option Memory)
  /-- The return value of the last sub-operation run on its own. -/
  subReturn : SubReturn
  deriving DecidableEq, Repr

/-- Why the machine stops with a fault: there is no such reason. The spec's five conditions are records, not
traps (`60_exceptions.md` R124), and "No condition in this core is fatal to the process" (R130). -/
inductive Fault where
  deriving DecidableEq, Repr

/-- Why an event has no step. -/
inductive Refusal where
  /-- Raised by an arm of `exec` whose operation has no meaning yet: no arm at present. Safe. -/
  | notModelled (mnemonic : String)
  /-- Raised by `step` when the datagram offered is longer than `MAX_DGRAM_LEN`: the host never presents one
  (R30), and the spec's own treatment is "refuse" (`93_implementation_defined.md` U9). Safe: the model stops
  where no run of the spec goes. -/
  | datagramTooLong
  deriving DecidableEq, Repr

/-- The block right after reset (`70_reset_and_hazards.md` R144), under the default parameters (R7), with
nothing offered to it and nothing yet put out. -/
def State.reset : State where
  runState := .running
  asmState := .accumulating
  rowsWritten := 0
  working := []
  published := none
  pubValid := false
  cfg := Config.default
  inputs := []
  eventIndex := 0
  held := []
  results := []
  frameReady := []
  acquired := []
  subReturn := .nothing

end Sys2Proof.Machine
end

