-- ==== Sys2Proof/Machine/Flags.lean ====
section
/-! DEFINITION. The codes and words the block reports with: condition and kind codes, the two record types
of the `RESULT` channel (`60_exceptions.md` R124, R131), and the read-only status view (`10_state.md` R27). -/

namespace Sys2Proof.Machine

/-- The conditions of `60_exceptions.md` R124; codes 6 and 7 are reserved and never emitted. -/
inductive Condition where
  | none
  | unknownMarker
  | truncatedPacket
  | outOfRangeWrite
  | transportClosed
  | stopRequested
  deriving DecidableEq, Repr

/-- The condition codes of R124. -/
def conditionCode : Condition → BitVec 3
  | .none => 0
  | .unknownMarker => 1
  | .truncatedPacket => 2
  | .outOfRangeWrite => 3
  | .transportClosed => 4
  | .stopRequested => 5

/-- The PacketKind codes of `41_classifier.md` R86. -/
def kindCode : PacketKind → BitVec 2
  | .frameStart => 0
  | .pixelRow => 1
  | .unknown => 2
  | .frameEnd => 3

/-- A `RESULT` record (R131): `oor` in [63:32], zeros in [31:7], `published` in [6], `cond` in [5:3], `kind`
in [2:1], type 0 in [0]. -/
def resultRecord (kind : PacketKind) (cond : Condition) (published : Bool) (oor : BitVec 32) : Record :=
  oor ++ 0#25 ++ BitVec.ofBool published ++ conditionCode cond ++ kindCode kind ++ 0#1

/-- A `RESULT_TERM` record (R131): `reason` in [5:3], type 1 in [0], zeros elsewhere. -/
def termRecord (reason : Condition) : Record :=
  0#58 ++ conditionCode reason ++ 0#2 ++ 1#1

/-- The condition of a complete pixel row whose rejected-pixel count is `oor` (`42_scanline_decoder.md` R87,
`60_exceptions.md` R127). -/
def rowCondition (oor : Nat) : Condition :=
  if 0 < oor then .outOfRangeWrite else .none

/-- The encoding of `RUN_STATE` (`10_state.md` R15). -/
def runBit : RunState → BitVec 1
  | .running => 0
  | .stopped => 1

/-- The encoding of `ASM_STATE` (`10_state.md` R15). -/
def asmBit : AsmState → BitVec 1
  | .accumulating => 0
  | .publishing => 1

/-- `STATUS` (`10_state.md` R27): RUN in [0], PUB_VALID in [1], ASM in [2], zeros above. Reading it is no
operation of the table and has no side effect: it is this function of the state between steps. -/
def statusView (s : State) : BitVec 32 :=
  0#29 ++ asmBit s.asmState ++ BitVec.ofBool s.pubValid ++ runBit s.runState

/-- `ROWS` (`10_state.md` R27): `ROWS_WRITTEN`, in 32 bits. -/
def rowsView (s : State) : BitVec 32 := BitVec.ofNat 32 s.rowsWritten

end Sys2Proof.Machine
end

