-- ==== Sys2Proof/Machine/Operands.lean ====
section
/-! DEFINITION. The operands of a pixel row, assembled from its header words and payload bytes
(`30_encoding.md` R61 to R65), and the parts of a sample (`40_color_converter.md` R74). -/

namespace Sys2Proof.Machine

/-- `v mod 2^32` at the default width: the residue that a value of the counter's width keeps (`00_scope.md`
R7, R8; log entry 2). -/
def wrapWord (c : Config) (v : Nat) : Nat := v % c.wordRange

/-- A raw header word less one, modulo the range of a word: adding the range less one subtracts one. -/
def lessOne (c : Config) (raw : Nat) : Nat := wrapWord c (raw + (c.wordRange - 1))

/-- `rowIndex = (rowRaw - 1) mod 2^32` (`30_encoding.md` R61). -/
def rowIndex (c : Config) (rowRaw : Nat) : Nat := lessOne c rowRaw

/-- `columnCount = (colRaw - 1) mod 2^32` (R62): decoded, and then used by nothing
(`42_scanline_decoder.md` R92). -/
def columnCount (c : Config) (colRaw : Nat) : Nat := lessOne c colRaw

/-- `sampleCount = (sizeRaw × SIZE_MULT) mod 2^32` (R63). -/
def sampleCount (c : Config) (sizeRaw : Nat) : Nat := wrapWord c (sizeRaw * c.sizeMult)

/-- The samples that a payload holds, in order: sample `i` is the byte pair at `2i` (R64). A last odd byte is
no sample. -/
def samplesOf : List Byte → List Sample
  | hi :: lo :: rest => sampleOfBytes hi lo :: samplesOf rest
  | _ => []

/-- The samples of a complete row: the first `sampleCount`; what follows is ignored (R69). -/
def rowSamples (c : Config) (sizeRaw : Nat) (payload : List Byte) : List Sample :=
  (samplesOf payload).take (sampleCount c sizeRaw)

/-- `L < 16 + 2 × sampleCount`, in exact arithmetic (R65, `42_scanline_decoder.md` R90): the payload is the
datagram from `HDR_LEN` on, so `HDR_LEN` stands on both sides and is left out. -/
def payloadTruncated (c : Config) (sizeRaw : Nat) (payload : List Byte) : Bool :=
  decide (payload.length < 2 * sampleCount c sizeRaw)

/-- Bits 15 to 11 of a sample: 5-bit red (R74). -/
def red5 (s : Sample) : Nat := (s.extractLsb' 11 5).toNat

/-- Bits 10 to 5 of a sample: 6-bit green (R74). -/
def green6 (s : Sample) : Nat := (s.extractLsb' 5 6).toNat

/-- Bits 4 to 0 of a sample: 5-bit blue (R74). -/
def blue5 (s : Sample) : Nat := (s.extractLsb' 0 5).toNat

end Sys2Proof.Machine
end

