-- ==== Sys2Proof/Machine/Ops.lean ====
section
/-! DEFINITION. The named operations over the block's memory and registers that the meanings share: frame
stores, output channels, taking a condition, CONVERT, WriteWorking, PUBLISH and ROW_DONE. -/

namespace Sys2Proof.Machine

/-! ### Frame stores (`20_memory.md`) -/

/-- What an unlisted cell reads as: black, the reset value of every `WORKING` cell (`10_state.md` R22). -/
def Memory.unlisted : Nat := 0x000000

/-- The canonical form: indexes strictly rising, and no entry that an unlisted cell reads as. -/
def Memory.wf : Memory → Bool
  | [] => true
  | [(_, v)] => v != Memory.unlisted
  | (a, v) :: (b, w) :: rest => v != Memory.unlisted && decide (a < b) && Memory.wf ((b, w) :: rest)

/-- Every listed cell is one of the frame's `FRAME_W × FRAME_H` cells (R38, R40), and its value one that three
channels can hold (R39). -/
def Memory.inFrame (c : Config) (m : Memory) : Bool :=
  m.all fun e => decide (e.1 < c.frameW * c.frameH) && decide (e.2 < 2 ^ (3 * c.channelWidth))

/-- The value of the cell with index `a`. -/
def Memory.read (a : Nat) : Memory → Nat
  | [] => Memory.unlisted
  | (b, w) :: rest => if a = b then w else Memory.read a rest

/-- `m` with `v` at `a` in front, unless `v` is what an unlisted cell reads as. -/
def Memory.push (a : Nat) (v : Nat) (m : Memory) : Memory :=
  if v = Memory.unlisted then m else (a, v) :: m

/-- The whole-cell write (R46), keeping the canonical form. -/
def Memory.write (a : Nat) (v : Nat) : Memory → Memory
  | [] => Memory.push a v []
  | (b, w) :: rest =>
    if a < b then Memory.push a v ((b, w) :: rest)
    else if a = b then Memory.push a v rest
    else (b, w) :: Memory.write a v rest

/-- The linear index of the cell at `(col, row)` (R40). -/
def cellIndex (c : Config) (col row : Nat) : Nat := row * c.frameW + col

/-- `(col, row)` names a cell of a frame (R38). -/
def inBounds (c : Config) (col row : Nat) : Bool := decide (row < c.frameH) && decide (col < c.frameW)

/-- The cell of a frame at `(col, row)`; none outside the frame, where no cell exists (R38). -/
def cellAt (c : Config) (m : Memory) (col row : Nat) : Option Nat :=
  if inBounds c col row then some (Memory.read (cellIndex c col row) m) else none

/-- The cell `{R, G, B}`, R in the upper bits (R39). -/
def packCell (c : Config) (r g b : Nat) : Nat :=
  r * 2 ^ (2 * c.channelWidth) + g * 2 ^ c.channelWidth + b

/-- Red of a cell: bits 23 to 16 at the default channel width (R39). -/
def cellRed (c : Config) (v : Nat) : Nat := v / 2 ^ (2 * c.channelWidth) % 2 ^ c.channelWidth

/-- Green of a cell: bits 15 to 8 at the default channel width (R39). -/
def cellGreen (c : Config) (v : Nat) : Nat := v / 2 ^ c.channelWidth % 2 ^ c.channelWidth

/-- Blue of a cell: bits 7 to 0 at the default channel width (R39). -/
def cellBlue (c : Config) (v : Nat) : Nat := v % 2 ^ c.channelWidth

/-- The consumer's byte view of a frame (R41): byte `3p` is R, `3p+1` G, `3p+2` B of cell `p`; none past the
`3 × FRAME_W × FRAME_H` bytes. Under another channel width it is the view channel by channel (log entry 2). -/
def frameByte (c : Config) (m : Memory) (a : Nat) : Option Nat :=
  if a < 3 * c.frameW * c.frameH then
    some (match a % 3 with
      | 0 => cellRed c (Memory.read (a / 3) m)
      | 1 => cellGreen c (Memory.read (a / 3) m)
      | _ => cellBlue c (Memory.read (a / 3) m))
  else none

/-! ### CONVERT (`40_color_converter.md`) -/

/-- One channel: the exact product with 255, the channel's maximum at the default width, then truncating
division by the field's maximum (R75; log entry 2). -/
def scaleChannel (c : Config) (x fieldMax : Nat) : Nat := x * c.channelMax / fieldMax

/-- CONVERT (R73): `{r8, g8, b8}`. -/
def convertSample (c : Config) (s : Sample) : Nat :=
  packCell c (scaleChannel c (red5 s) 31) (scaleChannel c (green6 s) 63) (scaleChannel c (blue5 s) 31)

/-! ### WriteWorking and the sample loop (`42_scanline_decoder.md`) -/

/-- WriteWorking (R98) on the frame store: none is the spec's `false`, a rejected write. -/
def writeWorking (c : Config) (col row : Nat) (rgb : Nat) (m : Memory) : Option Memory :=
  if c.frameH ≤ row ∨ c.frameW ≤ col then none
  else some (Memory.write (cellIndex c col row) rgb m)

/-- The sample loop of R87 from column `col` on, over the frame store and the count `oor` of rejected
writes (R93, R94, R97). -/
def writeSamples (c : Config) (row : Nat) : Nat → List Sample → Memory × Nat → Memory × Nat
  | _, [], acc => acc
  | col, smp :: rest, acc =>
    match writeWorking c col row (convertSample c smp) acc.1 with
    | some m => writeSamples c row (col + 1) rest (m, acc.2)
    | none => writeSamples c row (col + 1) rest (acc.1, acc.2 + 1)

/-! ### Registers and output channels -/

/-- `RUN_STATE <- r`. -/
def setRunState (r : RunState) (s : State) : State := { s with runState := r }

/-- `WORKING` replaced by the store the sample loop left. -/
def setWorking (m : Memory) (s : State) : State := { s with working := m }

/-- `ROWS_WRITTEN <- ROWS_WRITTEN + 1`, in the counter's width (`43_frame_assembler.md` R101). -/
def countRow (s : State) : State := { s with rowsWritten := wrapWord s.cfg (s.rowsWritten + 1) }

/-- One record on `RESULT` (`60_exceptions.md` R131). -/
def emitResult (r : Record) (s : State) : State := { s with results := s.results ++ [r] }

/-- The answer of one ACQUIRE on `ACQ` (`43_frame_assembler.md` R112). -/
def answerAcquire (f : Option Memory) (s : State) : State := { s with acquired := s.acquired ++ [f] }

/-- The value a sub-operation run on its own hands back. -/
def returnSub (r : SubReturn) (s : State) : State := { s with subReturn := r }

/-! ### Taking a condition (`60_exceptions.md`) -/

/-- `raise <Condition>` (`00_scope.md` R10, `60_exceptions.md` R134): an aborting condition ends the
datagram's step with no state written and emits its record. It saves nothing, changes no mode, and there is
no return from it (R135). -/
def raiseCondition (kind : PacketKind) (cond : Condition) (s : State) : State :=
  emitResult (resultRecord kind cond false 0) s

/-! ### PUBLISH and ROW_DONE (`43_frame_assembler.md`) -/

/-- `ASM_STATE <- a` (R110). -/
def setAsmState (a : AsmState) (s : State) : State := { s with asmState := a }

/-- Step (b) of PUBLISH: `PUBLISHED <- snap; PUB_VALID <- 1`. -/
def swapPublished (snap : Memory) (s : State) : State := { s with published := some snap, pubValid := true }

/-- Step (c) of PUBLISH: `emit FRAME_READY(snap)` (R113). -/
def notifyFrame (snap : Memory) (s : State) : State := { s with frameReady := s.frameReady ++ [snap] }

/-- Step (d) of PUBLISH: `ROWS_WRITTEN <- 0`. -/
def clearRows (s : State) : State := { s with rowsWritten := 0 }

/-- PUBLISH (R106): `snap` is `WORKING` as it stands, taken by value (R107). -/
def publishFrame (s : State) : State :=
  setAsmState .accumulating
    (clearRows (notifyFrame s.working (swapPublished s.working (setAsmState .publishing s))))

/-- ROW_DONE (R101) with the value it returns, `published`: the test is equality right after the increment
(R102). -/
def completeRow (s : State) : State × Bool :=
  if (countRow s).rowsWritten = s.cfg.rowsPerFrame then (publishFrame (countRow s), true)
  else (countRow s, false)

/-! ### Admission and reset -/

/-- A datagram's step is taken only while `RUNNING` (`44_receiver_control.md` R115); while `STOPPED` the
datagram has no step and nothing changes (R121). -/
def whileRunning (effect : State → State) (s : State) : Host.Outcome State Fault Refusal :=
  match s.runState with
  | .running => .next (effect s)
  | .stopped => .next s

/-- The assignments of RESET (`70_reset_and_hazards.md` R144): every element of `10_state.md` R15, and
nothing else. Parameters survive it and it puts nothing out. -/
def resetBlock (s : State) : State :=
  { s with
    runState := .running
    asmState := .accumulating
    rowsWritten := 0
    working := []
    pubValid := false
    published := none }

end Sys2Proof.Machine
end

