-- ==== Sys2Proof/Machine/Assembler.lean ====
section
/-! DEFINITION. The frame assembler (`43_frame_assembler.md`): FRAME_START, FRAME_END, ROW_DONE, PUBLISH and
the consumer's ACQUIRE. -/

namespace Sys2Proof.Machine

/-- What both frame markers do: PUBLISH whatever `ROWS_WRITTEN` is, then the record (R104, R105). -/
def publishOnMarker (kind : PacketKind) (s : State) : State :=
  emitResult (resultRecord kind .none true 0) (publishFrame s)

/-- FRAME_START (R104), taken while `RUNNING`. -/
def execFrameStart (s : State) : Host.Outcome State Fault Refusal :=
  whileRunning (publishOnMarker .frameStart) s

/-- What a frame-end marker does: with `FRAME_END_EN = 0` the operation does not exist and the datagram is
UNKNOWN, which is dropped (R105; `44_receiver_control.md` R118). -/
def frameEndEffect (s : State) : State :=
  if s.cfg.frameEndEn then publishOnMarker .frameEnd s else raiseCondition .unknown .unknownMarker s

/-- FRAME_END (R105), taken while `RUNNING`. -/
def execFrameEnd (s : State) : Host.Outcome State Fault Refusal :=
  whileRunning frameEndEffect s

/-- ROW_DONE (R101) on its own, with the `published` value it returns. -/
def execRowDone (s : State) : Host.Outcome State Fault Refusal :=
  .next (returnSub (.published (completeRow s).2) (completeRow s).1)

/-- PUBLISH (R106) on its own; it returns nothing and always completes. -/
def execPublish (s : State) : Host.Outcome State Fault Refusal :=
  .next (publishFrame s)

/-- What an ACQUIRE returns (R112): NULL while `PUB_VALID = 0`, else the whole of `PUBLISHED`, by value. -/
def acquireAnswer (s : State) : Option Memory :=
  if s.pubValid then s.published else none

/-- ACQUIRE (R112), taken in any `RUN_STATE`. -/
def execAcquire (s : State) : Host.Outcome State Fault Refusal :=
  .next (answerAcquire (acquireAnswer s) s)

end Sys2Proof.Machine
end

