-- ==== Sys2Proof/Machine/Control.lean ====
section
/-! DEFINITION. Receiver control (`44_receiver_control.md`): DROP for the two UNKNOWN rows, STOP, CLOSE; and
RESET (`70_reset_and_hazards.md`). -/

namespace Sys2Proof.Machine

/-- UNKNOWN: DROP (R118) of a datagram whose marker is not in the map. -/
def execUnknown (s : State) : Host.Outcome State Fault Refusal :=
  whileRunning (raiseCondition .unknown .unknownMarker) s

/-- UNKNOWN_SHORT: DROP (R118) of a datagram of fewer than 4 bytes (`41_classifier.md` R80). -/
def execUnknownShort (s : State) : Host.Outcome State Fault Refusal :=
  whileRunning (raiseCondition .unknown .unknownMarker) s

/-- The end of the receiver loop (R119, R120): `RUN_STATE <- STOPPED` and one termination record, nothing
published; while `STOPPED` already, no effect and no record (R122). -/
def terminate (reason : Condition) (s : State) : State :=
  match s.runState with
  | .running => emitResult (termRecord reason) (setRunState .stopped s)
  | .stopped => s

/-- STOP (R119). -/
def execStop (s : State) : Host.Outcome State Fault Refusal :=
  .next (terminate .stopRequested s)

/-- CLOSE (R120): STOP with the reason `TRANSPORT_CLOSED`. -/
def execClose (s : State) : Host.Outcome State Fault Refusal :=
  .next (terminate .transportClosed s)

/-- RESET (`70_reset_and_hazards.md` R144), taken in any state. -/
def execReset (s : State) : Host.Outcome State Fault Refusal :=
  .next (resetBlock s)

end Sys2Proof.Machine
end

