-- ==== Sys2Proof/Machine/Converter.lean ====
section
/-! DEFINITION. The converter family (`40_color_converter.md`): CONVERT run on its own. -/

namespace Sys2Proof.Machine

/-- CONVERT (R73): total and pure (R76); the cell it returns is the only trace it leaves. -/
def execConvert (smp : Sample) (s : State) : Host.Outcome State Fault Refusal :=
  .next (returnSub (.cell (convertSample s.cfg smp)) s)

end Sys2Proof.Machine
end

