-- ==== Sys2Proof/Machine/Scanline.lean ====
section
/-! DEFINITION. The scanline decoder (`42_scanline_decoder.md`): PIXEL_ROW. -/

namespace Sys2Proof.Machine

/-- The part of R87 after both length checks: the sample loop, ROW_DONE once (R96), and the record. -/
def decodeRow (row : Nat) (samples : List Sample) (s : State) : State :=
  let loop := writeSamples s.cfg row 0 samples (s.working, 0)
  let done := completeRow (setWorking loop.1 s)
  emitResult (resultRecord .pixelRow (rowCondition loop.2) done.2 (BitVec.ofNat 32 loop.2)) done.1

/-- The step of R87: TruncatedPacket when the header (R88) or the declared payload (R90) is not all there,
decided before any write (R91), else the row is decoded. -/
def pixelRowEffect (body : RowBody) (s : State) : State :=
  match body with
  | .short _ => raiseCondition .pixelRow .truncatedPacket s
  | .full rowRaw _ sizeRaw payload =>
    if payloadTruncated s.cfg sizeRaw payload then raiseCondition .pixelRow .truncatedPacket s
    else decodeRow (rowIndex s.cfg rowRaw) (rowSamples s.cfg sizeRaw payload) s

/-- PIXEL_ROW (R87), taken while `RUNNING`. -/
def execPixelRow (body : RowBody) (s : State) : Host.Outcome State Fault Refusal :=
  whileRunning (pixelRowEffect body) s

end Sys2Proof.Machine
end

