-- ==== Sys2Proof/Machine/Dispatch.lean ====
section
/-! DEFINITION. The one dispatcher: each operation of the table to its meaning. -/

namespace Sys2Proof.Machine

def exec (i : Instr) (s : State) : Host.Outcome State Fault Refusal :=
  match i with
  | .frameStart _ => Sys2Proof.Machine.execFrameStart s
  | .pixelRow body => Sys2Proof.Machine.execPixelRow body s
  | .frameEnd _ => Sys2Proof.Machine.execFrameEnd s
  | .unknown _ _ => Sys2Proof.Machine.execUnknown s
  | .unknownShort _ => Sys2Proof.Machine.execUnknownShort s
  | .stop => Sys2Proof.Machine.execStop s
  | .close => Sys2Proof.Machine.execClose s
  | .acquire => Sys2Proof.Machine.execAcquire s
  | .reset => Sys2Proof.Machine.execReset s
  | .convert smp => Sys2Proof.Machine.execConvert smp s
  | .rowDone => Sys2Proof.Machine.execRowDone s
  | .publish => Sys2Proof.Machine.execPublish s

end Sys2Proof.Machine
end

