-- ==== Sys2Proof/Machine/Fetch.lean ====
section
/-! DEFINITION. Which operation comes next (`10_state.md` R17): the block fetches no instructions; the next
operation is the next offer, admitted by channel (`44_receiver_control.md` R115, R119 to R122). -/

namespace Sys2Proof.Machine

/-- What the next offer comes to. -/
inductive Fetched where
  /-- No offer: the block waits (`60_exceptions.md` R142). -/
  | waiting
  /-- A datagram offered while `STOPPED` (R121). -/
  | turnedAway (bytes : Datagram)
  /-- A datagram the decoder rejects by name. -/
  | rejected (why : DecodeError)
  /-- An operation to take. -/
  | operation (i : Instr)
  deriving DecidableEq, Repr

/-- A datagram on `DG_IN`: accepted only while `RUNNING` (R115, R121), and then decoded. -/
def admitDatagram (s : State) (bytes : Datagram) : Fetched :=
  match s.runState with
  | .stopped => .turnedAway bytes
  | .running =>
    match decode s.cfg bytes with
    | .ok i => .operation i
    | .error e => .rejected e

/-- The next offer, read as an operation. -/
def fetch (s : State) : Fetched :=
  match s.inputs with
  | [] => .waiting
  | .datagram bytes :: _ => admitDatagram s bytes
  | .stop :: _ => .operation .stop
  | .close :: _ => .operation .close
  | .acquire :: _ => .operation .acquire
  | .reset :: _ => .operation .reset

/-- The block consumes the next offer: the event index advances by one (R17). -/
def takeOffer (s : State) : State := { s with inputs := s.inputs.tail, eventIndex := s.eventIndex + 1 }

/-- The block does not consume the datagram offered: it stays with the host, and no element of the block's
state changes (R121). -/
def turnAway (bytes : Datagram) (s : State) : State :=
  { s with inputs := s.inputs.tail, held := s.held ++ [bytes] }

/-- The named refusal of a rejected datagram. -/
def refusalOf : DecodeError → Refusal
  | .longerThanMax => .datagramTooLong

/-- `s` with a datagram as the next offer, and the block `RUNNING`, as `DG_IN` needs it to be. -/
def offerNext (bytes : Datagram) (s : State) : State :=
  { s with runState := .running, inputs := .datagram bytes :: s.inputs }

end Sys2Proof.Machine
end

