-- ==== Sys2Proof/Machine/Step.lean ====
section
/-! DEFINITION. One step: one input event, taken whole (`00_scope.md` R6, R11). -/

namespace Sys2Proof.Machine

/-- One step. With nothing offered the block waits and nothing changes (`60_exceptions.md` R142); a datagram
offered while `STOPPED` stays with the host (`44_receiver_control.md` R121); any other offer is consumed and
its operation runs to completion. -/
def step (s : State) : Host.Outcome State Fault Refusal :=
  match fetch s with
  | .waiting => .next s
  | .turnedAway bytes => .next (turnAway bytes s)
  | .rejected why => .refused (refusalOf why)
  | .operation i => exec i (takeOffer s)

/-- `s` with the datagram of a table row as its next offer, so that `step` runs exactly that operation. -/
def State.withFetchWord (s : State) (nbits w : Nat) : State :=
  offerNext (tableDatagram nbits w) s

end Sys2Proof.Machine
end

