-- ==== Sys2Proof/Machine/Notation.lean ====
section
/-! DEFINITION. The program notation of `30_encoding.md` R72: one input event per line, and the offer each line
expands to. It is notation only and has no behaviour (decision D21). -/

namespace Sys2Proof.Machine

/-- A line of an input program (R72); integer operands are 32-bit, samples 16-bit. -/
inductive Line where
  | fs
  | fe
  | prx (rr cr n : BitVec 32) (samples : List Sample)
  | pr (r k n : BitVec 32) (samples : List Sample)
  | row (r : BitVec 32) (samples : List Sample)
  | fill (r : BitVec 32) (s : Sample)
  | raw (bytes : List Byte)
  | stop
  | close
  | acq
  | reset
  deriving DecidableEq, Repr

/-- The bytes of `PRX rr, cr, n : s0 ... sk`: the marker, three little-endian words, big-endian samples; the
sample list need not hold `2n` samples. -/
def prxBytes (c : Config) (rr cr n : BitVec 32) (samples : List Sample) : Datagram :=
  wordWire c c.markerPixelRow ++ wordWire c rr.toNat ++ wordWire c cr.toNat ++ wordWire c n.toNat ++ samples.flatMap be16Bytes

/-- `PR r, c, n` is `PRX ((r+1) mod 2^32), ((c+1) mod 2^32), n`. -/
def prBytes (c : Config) (r k n : BitVec 32) (samples : List Sample) : Datagram :=
  prxBytes c (r + 1) (k + 1) n samples

/-- The offer a line expands to. `ROW` sends half as many as its samples for `n`, and `FILL` a whole row of
`FRAME_W` equal samples. -/
def expandLine (c : Config) : Line → Offer
  | .fs => .datagram (wordWire c c.markerFrameStart)
  | .fe => .datagram (wordWire c c.markerFrameEnd)
  | .prx rr cr n samples => .datagram (prxBytes c rr cr n samples)
  | .pr r k n samples => .datagram (prBytes c r k n samples)
  | .row r samples => .datagram (prBytes c r 0 (BitVec.ofNat 32 (samples.length / 2)) samples)
  | .fill r s =>
    .datagram (prBytes c r 0 (BitVec.ofNat 32 (c.frameW / 2)) (List.replicate c.frameW s))
  | .raw bytes => .datagram bytes
  | .stop => .stop
  | .close => .close
  | .acq => .acquire
  | .reset => .reset

end Sys2Proof.Machine
end

