-- ==== Sys2Proof/Safety.lean ====
section
/-! DEFINITION. What counts as a safe run, in the terms the statements use: the invariant of a state between
steps, the part of a state that is the block's own, the records the block may emit, the cells an operation
writes, and what a complete pixel-row datagram is. -/

namespace Sys2Proof.Machine

/-- A frame store in canonical form that lists only cells of the frame, each with a value its width holds. -/
def Memory.isFrame (c : Config) (m : Memory) : Bool := Memory.wf m && Memory.inFrame c m

/-- What holds between steps. -/
structure State.Inv (s : State) : Prop where
  /-- The parameters stand in the relations of `00_scope.md` R7. -/
  cfgWf : s.cfg.Wf
  /-- Every observer between steps sees `ACCUMULATING` (`10_state.md` R19). -/
  accumulating : s.asmState = .accumulating
  /-- `ROWS_WRITTEN ≤ ROWS_PER_FRAME - 1` (`10_state.md` R21). -/
  rowsBelow : s.rowsWritten < s.cfg.rowsPerFrame
  /-- `WORKING` is a canonical store of the frame's cells (`10_state.md` R22). -/
  workingFrame : Memory.isFrame s.cfg s.working = true
  /-- `PUB_VALID` is 1 exactly when `lastPublished` is not null (`10_state.md` R24). -/
  validIff : s.pubValid = s.published.isSome
  /-- So is every frame published. -/
  publishedFrame : ∀ f, s.published = some f → Memory.isFrame s.cfg f = true
  /-- `PUBLISHED` is the frame of the latest notification (`20_memory.md` R50, `43_frame_assembler.md` R113). -/
  latest : s.pubValid = true → s.published = s.frameReady.getLast?

/-- Two states agree on the six elements of `10_state.md` R15. -/
structure SameBlock (s t : State) : Prop where
  runState : s.runState = t.runState
  asmState : s.asmState = t.asmState
  rowsWritten : s.rowsWritten = t.rowsWritten
  working : s.working = t.working
  published : s.published = t.published
  pubValid : s.pubValid = t.pubValid

/-- The `RESULT` records of `60_exceptions.md` R132. -/
inductive IsResultRecord : Record → Prop where
  | frameStart : IsResultRecord (resultRecord .frameStart .none true 0)
  | frameEnd : IsResultRecord (resultRecord .frameEnd .none true 0)
  | row (p : Bool) : IsResultRecord (resultRecord .pixelRow .none p 0)
  | rowOutOfRange (p : Bool) (oor : BitVec 32) (h : oor ≠ 0) :
      IsResultRecord (resultRecord .pixelRow .outOfRangeWrite p oor)
  | rowTruncated : IsResultRecord (resultRecord .pixelRow .truncatedPacket false 0)
  | unknown : IsResultRecord (resultRecord .unknown .unknownMarker false 0)

/-- The cell with index `a` is one that the sample loop of `(row, n samples)` writes: row `row`, a column
below both `n` and `FRAME_W` (`42_scanline_decoder.md` R99). -/
def rowCovers (c : Config) (row n a : Nat) : Prop :=
  row < c.frameH ∧ ∃ col, col < n ∧ col < c.frameW ∧ a = cellIndex c col row

/-- Operation `i` is a complete pixel row that writes the cell with index `a`. -/
def writesCell (s : State) (i : Instr) (a : Nat) : Prop :=
  s.runState = .running ∧ ∃ rowRaw colRaw sizeRaw payload,
    i = .pixelRow (.full rowRaw colRaw sizeRaw payload) ∧
    payloadTruncated s.cfg sizeRaw payload = false ∧
    rowCovers s.cfg (rowIndex s.cfg rowRaw) (sampleCount s.cfg sizeRaw) a

/-- `max(0, sampleCount - FRAME_W)`, or all of `sampleCount` in a row outside the frame
(`42_scanline_decoder.md` R97). -/
def rejectedCount (c : Config) (row n : Nat) : Nat := if c.frameH ≤ row then n else n - c.frameW

/-- A pixel-row datagram that passes both length checks (`30_encoding.md` R65). -/
def isCompleteRow (c : Config) (D : Datagram) : Bool :=
  match decode c D with
  | .ok (.pixelRow (.full _ _ sizeRaw payload)) => !payloadTruncated c sizeRaw payload
  | _ => false

/-- The offer is a complete pixel row: one that a decoded row counts. -/
def Offer.isRow (c : Config) : Offer → Bool
  | .datagram D => isCompleteRow c D
  | .stop => false
  | .close => false
  | .acquire => false
  | .reset => false

/-- What a stretch of `43_frame_assembler.md` R114 may hold: any datagram the host may present but an FS or a
counted FE, so complete rows, truncated ones and UNKNOWN ones; and the consumer's requests. -/
def Offer.inStretch (c : Config) : Offer → Bool
  | .datagram D => decide (D.length ≤ c.maxDgramLen) && classify c D != .frameStart && classify c D != .frameEnd
  | .stop => false
  | .close => false
  | .acquire => true
  | .reset => false

/-- `n` steps of the machine, stopping at the first refusal. -/
def runSteps (n : Nat) (s : State) : Host.Outcome State Fault Refusal := Host.Core.run Sys2Proof.core n s

/-- The state without its consumer's requests: the same offers, less every ACQUIRE. -/
def withoutAcquires (s : State) : State :=
  { s with inputs := s.inputs.filter (fun o => o != .acquire) }

end Sys2Proof.Machine
end

