-- ==== Sys2Proof/Certificates/Slice0/Obligations.lean ====
section
/-! DEFINITION. The statements for the provers, `Obligations.<Name> : Prop`. Each docstring names the rule of
the spec it formalises, and says so where a clause rests on a choice of the spec's or of the model's. A
result is given as an equation `exec i s = .next { s with … }`: that is the completion of the operation, its
effect, and its frame (every field not named is unchanged). The statements hold for every setting of the
parameters of `00_scope.md` R7, the two widths among them: `2 ^ counterWidth` is the spec's `2^32`,
`2 ^ channelWidth - 1` its 255, and what they come to at other widths is log entry 2. -/

open Sys2Proof Sys2Proof.Machine

/-! ### Reset -/

/-- The reset values of `10_state.md` R15 and R22 to R24, with what the interfaces then show (R27, R112), and the
parameters the block runs under: each at the default of R7's table, so the frame is exactly 640 by 480. The
values rest on the spec's own decisions D7 to D10 and D23; that the parameters stand in State is log entry 1,
their widths log entry 2, and that the input and output lists are empty at reset log entry 17. -/
def Obligations.ResetStateIsBlankAndRunning : Prop :=
  State.reset.runState = .running ∧ State.reset.asmState = .accumulating ∧ State.reset.rowsWritten = 0 ∧
  State.reset.published = none ∧ State.reset.pubValid = false ∧
  State.reset.cfg =
    { frameW := 640, frameH := 480, rowsPerFrame := 480, markerFrameStart := 0xDEADBEEF,
      markerPixelRow := 0xBEEFBEEF, markerFrameEnd := 0xDEADDEAD, frameEndEn := true, hdrLen := 16,
      offRow := 4, offCol := 8, offSize := 12, sizeMult := 2, maxDgramLen := 65535, counterWidth := 32,
      channelWidth := 8 } ∧
  (∀ col row, cellAt State.reset.cfg State.reset.working col row =
    if col < 640 ∧ row < 480 then some 0x000000 else none) ∧
  acquireAnswer State.reset = none ∧ statusView State.reset = 0 ∧ rowsView State.reset = 0

/-- RESET (`70_reset_and_hazards.md` R144) in any state, `STOPPED` included: every element of R15 at its reset
value, nothing put out, parameters kept; an ACQUIRE right after it returns `NULL`. The values rest on the
spec's decisions D7 to D10 and D26. -/
def Obligations.ResetEventSetsEveryElement : Prop :=
  ∀ s : State, ∃ t, exec .reset s = .next t ∧
    t = { s with runState := .running, asmState := .accumulating, rowsWritten := 0, working := [],
                 published := none, pubValid := false } ∧
    (∀ a, Memory.read a t.working = 0x000000) ∧ rowsView t = 0 ∧
    exec .acquire t = .next { t with acquired := t.acquired ++ [none] }

/-! ### The frame assembler -/

/-- FRAME_START (`43_frame_assembler.md` R104): while `RUNNING` it publishes the current `WORKING` whatever
`ROWS_WRITTEN` is, and reports it. -/
def Obligations.FrameStartPublishesAtOnce : Prop :=
  ∀ (ignored : List Byte) (s : State), s.runState = .running →
    exec (.frameStart ignored) s = .next
      { s with asmState := .accumulating, published := some s.working, pubValid := true,
               frameReady := s.frameReady ++ [s.working], rowsWritten := 0,
               results := s.results ++ [resultRecord .frameStart .none true 0] }

/-- FRAME_END (`43_frame_assembler.md` R105): with `FRAME_END_EN = 1` it publishes as FRAME_START does; with
`FRAME_END_EN = 0` the datagram is dropped as UNKNOWN. The rule is the spec's decision D11. -/
def Obligations.FrameEndFollowsItsEnable : Prop :=
  ∀ (ignored : List Byte) (s : State), s.runState = .running →
    (s.cfg.frameEndEn = true →
      exec (.frameEnd ignored) s = .next
        { s with asmState := .accumulating, published := some s.working, pubValid := true,
                 frameReady := s.frameReady ++ [s.working], rowsWritten := 0,
                 results := s.results ++ [resultRecord .frameEnd .none true 0] }) ∧
    (s.cfg.frameEndEn = false →
      exec (.frameEnd ignored) s = .next
        { s with results := s.results ++ [resultRecord .unknown .unknownMarker false 0] })

/-- ROW_DONE (`43_frame_assembler.md` R101): one more row, and a publish exactly when the count reaches
`ROWS_PER_FRAME`. In a state that keeps the counter below it (R21, `State.Inv`) the sum does not wrap. Its
return value `published` shows in the model's own field `subReturn` (log entry 8). The rule's counter has 32
bits; the sum at another counter width (`00_scope.md` R7) is the model's choice, log entry 2, and the bound of
the row count by that width log entry 4. -/
def Obligations.RowDoneCountsOrPublishes : Prop :=
  ∀ s : State,
    ((s.rowsWritten + 1) % 2 ^ s.cfg.counterWidth = s.cfg.rowsPerFrame →
      exec .rowDone s = .next
        { s with asmState := .accumulating, published := some s.working, pubValid := true,
                 frameReady := s.frameReady ++ [s.working], rowsWritten := 0,
                 subReturn := .published true }) ∧
    ((s.rowsWritten + 1) % 2 ^ s.cfg.counterWidth ≠ s.cfg.rowsPerFrame →
      exec .rowDone s = .next
        { s with rowsWritten := (s.rowsWritten + 1) % 2 ^ s.cfg.counterWidth,
                 subReturn := .published false }) ∧
    (s.cfg.Wf → s.rowsWritten < s.cfg.rowsPerFrame →
      (s.rowsWritten + 1) % 2 ^ s.cfg.counterWidth = s.rowsWritten + 1)

/-- PUBLISH (`43_frame_assembler.md` R106): the copy by value, the swap, the notification, the counter reset,
and `ACCUMULATING` again; it always completes, `WORKING` is unchanged (R109), and no other operation than
ROW_DONE (a pixel row runs it), FRAME_START and FRAME_END ever puts out a frame. -/
def Obligations.PublishCopiesWorking : Prop :=
  (∀ s : State,
    exec .publish s = .next
      { s with asmState := .accumulating, published := some s.working, pubValid := true,
               frameReady := s.frameReady ++ [s.working], rowsWritten := 0 }) ∧
  (∀ (i : Instr) (s t : State), exec i s = .next t → t.frameReady ≠ s.frameReady →
    i = .publish ∨ i = .rowDone ∨ (∃ body, i = .pixelRow body) ∨
    (∃ g, i = .frameStart g) ∨ (∃ g, i = .frameEnd g))

/-- ACQUIRE (`43_frame_assembler.md` R112) in any `RUN_STATE`: `NULL` while `PUB_VALID = 0`, else `PUBLISHED`,
by value; it writes no state. The rule is the spec's decision D14. -/
def Obligations.AcquireReturnsThePublishedFrame : Prop :=
  ∀ s : State,
    (s.pubValid = false → exec .acquire s = .next { s with acquired := s.acquired ++ [none] }) ∧
    (s.pubValid = true → exec .acquire s = .next { s with acquired := s.acquired ++ [s.published] })

/-- Two ACQUIREs with nothing between them return the same (`20_memory.md` R49; decision D14). -/
def Obligations.AcquireIsIdempotent : Prop :=
  ∀ s : State, ∃ t u f, exec .acquire s = .next t ∧ exec .acquire t = .next u ∧
    SameBlock s u ∧ u.acquired = s.acquired ++ [f, f]

/-- What an operation can do to `lastPublished`: nothing, RESET's `null`, or the whole of `WORKING` with its
notification and the counter at 0 (`20_memory.md` R48, `43_frame_assembler.md` R107, `10_state.md` R23). -/
def Obligations.PublishedIsKeptOrReplacedWhole : Prop :=
  ∀ (i : Instr) (s t : State), exec i s = .next t →
    (t.published = s.published ∧ t.pubValid = s.pubValid ∧ t.frameReady = s.frameReady) ∨
    (i = .reset ∧ t.published = none ∧ t.pubValid = false ∧ t.frameReady = s.frameReady) ∨
    (t.published = some t.working ∧ t.pubValid = true ∧ t.frameReady = s.frameReady ++ [t.working] ∧
      t.rowsWritten = 0 ∧ t.asmState = .accumulating)

/-- `43_frame_assembler.md` R113: every PUBLISH notifies once, and the frame the notification carries is what
an ACQUIRE taken right after it returns. -/
def Obligations.NotificationEqualsNextAcquire : Prop :=
  (∀ s : State, ∃ t, exec .publish s = .next t ∧ t.frameReady = s.frameReady ++ [s.working]) ∧
  (∀ (i : Instr) (s t : State), exec i s = .next t → t.frameReady ≠ s.frameReady →
    ∃ f, t.frameReady = s.frameReady ++ [f] ∧
      exec .acquire t = .next { t with acquired := t.acquired ++ [some f] })

/-! ### The color converter -/

/-- CONVERT (`40_color_converter.md` R73), with the fields, the quotients and the packing written as
arithmetic on the sample's value: for every channel width, and in the rule's own numbers for the width 8. The
cell it returns shows in the model's own field `subReturn` (log entry 8). At another channel width
(`00_scope.md` R7), `2 ^ n - 1` for 255 and the packing are the model's choice, log entry 2. -/
def Obligations.ConvertRescalesEachField : Prop :=
  ∀ (x : Sample) (s : State) (n top : Nat), n = s.cfg.channelWidth → top = 2 ^ n - 1 →
    exec (.convert x) s = .next
      { s with subReturn := .cell (x.toNat / 2048 * top / 31 * 2 ^ (2 * n) +
          x.toNat / 32 % 64 * top / 63 * 2 ^ n + x.toNat % 32 * top / 31) } ∧
    (n = 8 → exec (.convert x) s = .next
      { s with subReturn := .cell (x.toNat / 2048 * 255 / 31 * 65536 +
          x.toNat / 32 % 64 * 255 / 63 * 256 + x.toNat % 32 * 255 / 31) })

/-- `40_color_converter.md` R76: defined for every sample, the same cell whatever the state, no state of the
block written, each channel at most its maximum, at the maximum only at its field's maximum and at 0 only at
0. The maximum is 255 at the channel width 8. What a channel is at another width (`00_scope.md` R7) is the
model's choice, log entry 2; that legal parameters have at least 6 bits of it is log entry 4; the cell
returned shows in the model's own field `subReturn` (log entry 8). -/
def Obligations.ConvertIsPureWithExactExtremes : Prop :=
  ∀ (c : Config) (x : Sample), c.Wf →
    (∀ s s' : State, s.cfg = c → s'.cfg = c → ∃ t t', exec (.convert x) s = .next t ∧
      exec (.convert x) s' = .next t' ∧ SameBlock s t ∧ t.subReturn = t'.subReturn ∧
      t.subReturn = .cell (convertSample c x)) ∧
    cellRed c (convertSample c x) ≤ c.channelMax ∧ cellGreen c (convertSample c x) ≤ c.channelMax ∧
    cellBlue c (convertSample c x) ≤ c.channelMax ∧ (c.channelWidth = 8 → c.channelMax = 255) ∧
    (cellRed c (convertSample c x) = c.channelMax ↔ red5 x = 31) ∧
    (cellGreen c (convertSample c x) = c.channelMax ↔ green6 x = 63) ∧
    (cellBlue c (convertSample c x) = c.channelMax ↔ blue5 x = 31) ∧
    (cellRed c (convertSample c x) = 0 ↔ red5 x = 0) ∧
    (cellGreen c (convertSample c x) = 0 ↔ green6 x = 0) ∧
    (cellBlue c (convertSample c x) = 0 ↔ blue5 x = 0)

/-- `40_color_converter.md` R77, an inference the spec marks as derived: two different samples never give the
same cell, and each channel rises with its own field. At a channel width other than 8 it rests on the model's
choice, log entry 2, and on the bound of log entry 4. -/
def Obligations.ConvertIsInjectiveAndMonotone : Prop :=
  ∀ (c : Config) (x y : Sample), c.Wf →
    (convertSample c x = convertSample c y → x = y) ∧
    (red5 x ≤ red5 y → cellRed c (convertSample c x) ≤ cellRed c (convertSample c y)) ∧
    (green6 x ≤ green6 y → cellGreen c (convertSample c x) ≤ cellGreen c (convertSample c y)) ∧
    (blue5 x ≤ blue5 y → cellBlue c (convertSample c x) ≤ cellBlue c (convertSample c y))

/-! ### The scanline decoder -/

/-- `30_encoding.md` R61: `rowIndex` is the raw word less one, modulo the range of a word; raw 0 gives its
greatest value, `0xFFFFFFFF` at the width 32, a row no frame has. The rule's arithmetic is modulo 2^32; the
clauses at another counter width (`00_scope.md` R7) are the model's choice, log entry 2, and the bound of the
frame's height by that width is log entry 4. -/
def Obligations.RowIndexIsRawLessOne : Prop :=
  (∀ (c : Config) (r : Nat), r < 2 ^ c.counterWidth →
    rowIndex c r = if r = 0 then 2 ^ c.counterWidth - 1 else r - 1) ∧
  (∀ c : Config, c.counterWidth = 32 → rowIndex c 0 = 0xFFFFFFFF) ∧
  (∀ (c : Config) (col : Nat), c.Wf → inBounds c col (rowIndex c 0) = false)

/-- `30_encoding.md` R64 (with the offset parameter `HDR_LEN`, 16 by default): sample `i` of a complete row is
the `BE16` of the datagram at `HDR_LEN + 2i`, its high byte first. -/
def Obligations.SamplesAreBigEndianPairs : Prop :=
  ∀ (c : Config) (D : Datagram) (rowRaw colRaw sizeRaw : Nat) (payload : List Byte), c.Wf →
    decode c D = .ok (.pixelRow (.full rowRaw colRaw sizeRaw payload)) →
    payloadTruncated c sizeRaw payload = false →
    ∀ i, i < sampleCount c sizeRaw →
      ∃ hi lo, D[c.hdrLen + 2 * i]? = some hi ∧ D[c.hdrLen + 2 * i + 1]? = some lo ∧
        (rowSamples c sizeRaw payload)[i]? = some (BitVec.ofNat 16 (hi.toNat * 256 + lo.toNat))

/-- WriteWorking (`42_scanline_decoder.md` R98): outside the frame it rejects; inside it writes that cell, no
other, and the store stays canonical. -/
def Obligations.WriteWorkingIsBoundsChecked : Prop :=
  ∀ (c : Config) (col row : Nat) (rgb : Nat) (m : Memory), Memory.wf m = true →
    (c.frameH ≤ row ∨ c.frameW ≤ col → writeWorking c col row rgb m = none) ∧
    (row < c.frameH → col < c.frameW → ∃ m', writeWorking c col row rgb m = some m' ∧
      Memory.wf m' = true ∧ cellAt c m' col row = some rgb ∧
      (∀ a, a ≠ cellIndex c col row → Memory.read a m' = Memory.read a m) ∧
      (∀ col' row', (col' ≠ col ∨ row' ≠ row) → cellAt c m' col' row' = cellAt c m col' row'))

/-- `42_scanline_decoder.md` R91: a pixel row too short for its header, or for its declared payload (the
comparison exact, R90), leaves everything unchanged but for its record; on the operation, and on the bytes of
the datagram. That a pixel-row datagram too short for its header is truncated, and not UNKNOWN, is R88, the
spec's own reading (D5); the exact comparison is its decision D4, and the record that says so
(`60_exceptions.md` R126) its decision D15 (log entry 14). At widths other than 32 and 8 it rests on the
model's choice, log entry 2. -/
def Obligations.TruncatedRowChangesNothing : Prop :=
  (∀ (rest : List Byte) (s : State), s.runState = .running →
    exec (.pixelRow (.short rest)) s = .next
      { s with results := s.results ++ [resultRecord .pixelRow .truncatedPacket false 0] }) ∧
  (∀ (rowRaw colRaw sizeRaw : Nat) (payload : List Byte) (s : State), s.runState = .running →
    payload.length < 2 * (sizeRaw * s.cfg.sizeMult % 2 ^ s.cfg.counterWidth) →
    exec (.pixelRow (.full rowRaw colRaw sizeRaw payload)) s = .next
      { s with results := s.results ++ [resultRecord .pixelRow .truncatedPacket false 0] }) ∧
  (∀ (s : State) (D : Datagram) (rest : List Offer), s.cfg.Wf → s.runState = .running →
    s.inputs = .datagram D :: rest → D.length ≤ s.cfg.maxDgramLen →
    headerWord s.cfg D 0 = some s.cfg.markerPixelRow →
    (D.length < s.cfg.hdrLen ∨ ∃ z, headerWord s.cfg D s.cfg.offSize = some z ∧
      D.length < s.cfg.hdrLen + 2 * (z * s.cfg.sizeMult % 2 ^ s.cfg.counterWidth)) →
    step s = .next
      { s with inputs := rest, eventIndex := s.eventIndex + 1,
               results := s.results ++ [resultRecord .pixelRow .truncatedPacket false 0] })

/-- PIXEL_ROW on a complete datagram (`42_scanline_decoder.md` R87, R94, R96, R97, R99): the cells `(i,
rowIndex)` below both `sampleCount` and `FRAME_W` take the converted samples, no other cell changes, the row
counts whatever it wrote, and the record carries the rejected count. That every complete row counts is the
spec's decision D12, and the record its decision D15. At widths other than 32 and 8 it rests on the model's
choice, log entry 2. -/
def Obligations.CompleteRowWritesCountsAndReports : Prop :=
  ∀ (rowRaw colRaw sizeRaw : Nat) (payload : List Byte) (s : State),
    s.runState = .running → Memory.wf s.working = true →
    2 * (sizeRaw * s.cfg.sizeMult % 2 ^ s.cfg.counterWidth) ≤ payload.length →
    ∃ (m : Memory) (n row oor : Nat),
      n = sizeRaw * s.cfg.sizeMult % 2 ^ s.cfg.counterWidth ∧
      row = (rowRaw + (2 ^ s.cfg.counterWidth - 1)) % 2 ^ s.cfg.counterWidth ∧
      oor = rejectedCount s.cfg row n ∧
      Memory.wf m = true ∧
      (∀ i, i < n → i < s.cfg.frameW → row < s.cfg.frameH →
        ∃ x, be16 payload (2 * i) = some x ∧ cellAt s.cfg m i row = some (convertSample s.cfg x)) ∧
      (∀ a, ¬ rowCovers s.cfg row n a → Memory.read a m = Memory.read a s.working) ∧
      ((s.rowsWritten + 1) % 2 ^ s.cfg.counterWidth ≠ s.cfg.rowsPerFrame →
        exec (.pixelRow (.full rowRaw colRaw sizeRaw payload)) s = .next
          { s with working := m, rowsWritten := (s.rowsWritten + 1) % 2 ^ s.cfg.counterWidth,
                   results := s.results ++ [resultRecord .pixelRow
                     (if 0 < oor then .outOfRangeWrite else .none) false (BitVec.ofNat 32 oor)] }) ∧
      ((s.rowsWritten + 1) % 2 ^ s.cfg.counterWidth = s.cfg.rowsPerFrame →
        exec (.pixelRow (.full rowRaw colRaw sizeRaw payload)) s = .next
          { s with working := m, asmState := .accumulating, published := some m, pubValid := true,
                   frameReady := s.frameReady ++ [m], rowsWritten := 0,
                   results := s.results ++ [resultRecord .pixelRow
                     (if 0 < oor then .outOfRangeWrite else .none) true (BitVec.ofNat 32 oor)] })

/-- `42_scanline_decoder.md` R92 (decision D19): `columnCount` has no effect on any state or output. -/
def Obligations.ColumnCountHasNoEffect : Prop :=
  ∀ (rowRaw colRaw colRaw' sizeRaw : Nat) (payload : List Byte) (s : State),
    exec (.pixelRow (.full rowRaw colRaw sizeRaw payload)) s =
      exec (.pixelRow (.full rowRaw colRaw' sizeRaw payload)) s

/-- `30_encoding.md` R69, an inference the spec marks as derived: bytes past the last one a format reads change
nothing. -/
def Obligations.TrailingBytesAreIgnored : Prop :=
  (∀ (rowRaw colRaw sizeRaw : Nat) (payload extra : List Byte) (s : State),
    payloadTruncated s.cfg sizeRaw payload = false →
    exec (.pixelRow (.full rowRaw colRaw sizeRaw (payload ++ extra))) s =
      exec (.pixelRow (.full rowRaw colRaw sizeRaw payload)) s) ∧
  (∀ (g : List Byte) (s : State), exec (.frameStart g) s = exec (.frameStart []) s ∧
    exec (.frameEnd g) s = exec (.frameEnd []) s)

/-- `42_scanline_decoder.md` R100, an inference the spec marks as derived: two complete datagrams for different
rows commute in their effect on `WORKING`, and the counter does not depend on the row numbers. -/
def Obligations.DifferentRowsCommute : Prop :=
  ∀ (r1 k1 z1 r2 k2 z2 : Nat) (p1 p2 : List Byte) (s : State),
    s.runState = .running → Memory.wf s.working = true → rowIndex s.cfg r1 ≠ rowIndex s.cfg r2 →
    payloadTruncated s.cfg z1 p1 = false → payloadTruncated s.cfg z2 p2 = false →
    ∃ a ab b ba,
      exec (.pixelRow (.full r1 k1 z1 p1)) s = .next a ∧ exec (.pixelRow (.full r2 k2 z2 p2)) a = .next ab ∧
      exec (.pixelRow (.full r2 k2 z2 p2)) s = .next b ∧ exec (.pixelRow (.full r1 k1 z1 p1)) b = .next ba ∧
      ab.working = ba.working ∧ ab.rowsWritten = ba.rowsWritten

/-- `20_memory.md` R47: only a PIXEL_ROW step of the running receiver writes `WORKING`, and RESET; the consumer
does not, and what it is given does not depend on `WORKING`. -/
def Obligations.OnlyRowsAndResetWriteWorking : Prop :=
  (∀ (i : Instr) (s t : State), exec i s = .next t → t.working ≠ s.working →
    (s.runState = .running ∧ ∃ rowRaw colRaw sizeRaw payload,
      i = .pixelRow (.full rowRaw colRaw sizeRaw payload)) ∨ i = .reset) ∧
  (∀ (s : State) (m : Memory), exec .acquire { s with working := m } =
    .next { s with working := m, acquired := s.acquired ++ [acquireAnswer s] })

/-- `20_memory.md` R55: nothing but RESET clears `WORKING`; a cell keeps its value until a complete PIXEL_ROW
writes it again, and a publish copies the stale cells with the rest. -/
def Obligations.UnwrittenCellsKeepTheirValue : Prop :=
  ∀ (i : Instr) (s t : State), Memory.wf s.working = true → exec i s = .next t → i ≠ .reset →
    (∀ a, ¬ writesCell s i a → Memory.read a t.working = Memory.read a s.working) ∧
    (t.frameReady ≠ s.frameReady → t.published = some t.working)

/-! ### Receiver control -/

/-- DROP (`44_receiver_control.md` R118) and its condition (`60_exceptions.md` R125), for both UNKNOWN rows of
the table, and for every datagram the classifier calls UNKNOWN: no state written, one record. -/
def Obligations.UnknownDatagramsAreDropped : Prop :=
  (∀ (m : Nat) (g b : List Byte) (s : State), s.runState = .running →
    exec (.unknown m g) s = .next
      { s with results := s.results ++ [resultRecord .unknown .unknownMarker false 0] } ∧
    exec (.unknownShort b) s = .next
      { s with results := s.results ++ [resultRecord .unknown .unknownMarker false 0] }) ∧
  (∀ (s : State) (D : Datagram) (rest : List Offer), s.runState = .running →
    s.inputs = .datagram D :: rest → D.length ≤ s.cfg.maxDgramLen → classify s.cfg D = .unknown →
    step s = .next
      { s with inputs := rest, eventIndex := s.eventIndex + 1,
               results := s.results ++ [resultRecord .unknown .unknownMarker false 0] })

/-- STOP while `RUNNING` (`44_receiver_control.md` R119; decision D13): `STOPPED`, one termination record, and
nothing published or lost. -/
def Obligations.StopEndsTheLoop : Prop :=
  ∀ s : State, s.runState = .running →
    exec .stop s = .next { s with runState := .stopped, results := s.results ++ [termRecord .stopRequested] }

/-- `60_exceptions.md` R128: CLOSE is recorded as a termination with reason `TRANSPORT_CLOSED`, and the
consumer's channels carry nothing for it. -/
def Obligations.CloseIsANormalTermination : Prop :=
  ∀ s : State, s.runState = .running →
    exec .close s = .next
      { s with runState := .stopped, results := s.results ++ [termRecord .transportClosed] }

/-- STOP and CLOSE while `STOPPED` (`44_receiver_control.md` R122; decision D13) have no effect and no
record. -/
def Obligations.RepeatedTerminationDoesNothing : Prop :=
  ∀ s : State, s.runState = .stopped → exec .stop s = .next s ∧ exec .close s = .next s

/-- `44_receiver_control.md` R117: no datagram changes `RUN_STATE`, whatever its condition; only STOP, CLOSE
and RESET do. -/
def Obligations.NoDatagramChangesRunState : Prop :=
  ∀ (i : Instr) (s t : State), exec i s = .next t →
    (i.kind?.isSome = true → t.runState = s.runState) ∧
    (t.runState ≠ s.runState → i = .stop ∨ i = .close ∨ i = .reset)

/-- `44_receiver_control.md` R121 (decision D13): while `STOPPED` a datagram has no step, and an offered one
stays with the host, every element of the block unchanged. That the model's `step` then goes on with the next
offer, with the datagram in `held`, is the model's choice (log entry 6). -/
def Obligations.StoppedBlockTakesNoDatagram : Prop :=
  (∀ (i : Instr) (s : State), s.runState = .stopped → i.kind?.isSome = true → exec i s = .next s) ∧
  (∀ (s : State) (D : Datagram) (rest : List Offer), s.runState = .stopped →
    s.inputs = .datagram D :: rest → step s = .next { s with inputs := rest, held := s.held ++ [D] })

/-- `60_exceptions.md` R142 (decision D13): with nothing offered the block takes no step and no state changes.
That `step` then answers the same state is the model's choice (log entry 7). -/
def Obligations.WaitingChangesNothing : Prop :=
  ∀ s : State, s.inputs = [] → step s = .next s

/-- A step refuses only a datagram longer than `MAX_DGRAM_LEN` offered to the running block, which the host
never presents (`10_state.md` R30, `93_implementation_defined.md` U9). -/
def Obligations.OnlyOverlongDatagramsAreRefused : Prop :=
  ∀ (s : State) (r : Refusal), step s = .refused r ↔
    r = .datagramTooLong ∧ s.runState = .running ∧
    ∃ D rest, s.inputs = .datagram D :: rest ∧ s.cfg.maxDgramLen < D.length

/-- No condition is fatal (`60_exceptions.md` R130, `30_encoding.md` R70): every operation completes in every
state, and so does every step whose offer the host may make. Three of these completions are the model's
choice, for the spec gives the event no step or no operation: a datagram while `STOPPED` leaves the block as
it is (log entry 6; R121, U11), a step with nothing offered answers the same state (log entry 7), and
FRAME_END under `FRAME_END_EN = 0` is dropped (log entry 12). -/
def Obligations.EveryOperationCompletes : Prop :=
  (∀ (i : Instr) (s : State), ∃ t, exec i s = .next t) ∧
  (∀ s : State, (∀ D rest, s.inputs = .datagram D :: rest → D.length ≤ s.cfg.maxDgramLen) →
    ∃ t, step s = .next t)

/-- A step is the next offer's operation, run on the state with that offer taken (`10_state.md` R17,
`44_receiver_control.md` R115): the event index advances by one. -/
def Obligations.StepRunsTheNextOperation : Prop :=
  ∀ (s : State) (rest : List Offer),
    (∀ D i, s.inputs = .datagram D :: rest → s.runState = .running → decode s.cfg D = .ok i →
      step s = exec i { s with inputs := rest, eventIndex := s.eventIndex + 1 }) ∧
    (s.inputs = .stop :: rest → step s = exec .stop { s with inputs := rest, eventIndex := s.eventIndex + 1 }) ∧
    (s.inputs = .close :: rest →
      step s = exec .close { s with inputs := rest, eventIndex := s.eventIndex + 1 }) ∧
    (s.inputs = .acquire :: rest →
      step s = exec .acquire { s with inputs := rest, eventIndex := s.eventIndex + 1 }) ∧
    (s.inputs = .reset :: rest →
      step s = exec .reset { s with inputs := rest, eventIndex := s.eventIndex + 1 })

/-! ### Encoding -/

/-- CLASSIFY (`41_classifier.md` R79, R81, R84): the length check, then the marker against the map. At the
counter width 32 the marker is the first four bytes, the first the least significant. R79 says `L < 4` and
`LE32`; how long a marker is at another counter width (`00_scope.md` R7) is the model's choice, log entry 2,
and what legal parameters are is log entry 4. FRAME_END under its enable is the spec's decision D11. -/
def Obligations.ClassifierFollowsTheMarkerMap : Prop :=
  ∀ (c : Config) (D : Datagram), c.Wf →
    (D.length < c.wordBytes → classify c D = .unknown) ∧
    (∀ m, headerWord c D 0 = some m →
        (m = c.markerFrameStart → classify c D = .frameStart) ∧
        (m = c.markerPixelRow → classify c D = .pixelRow) ∧
        (m = c.markerFrameEnd → c.frameEndEn = true → classify c D = .frameEnd) ∧
        (m = c.markerFrameEnd → c.frameEndEn = false → classify c D = .unknown) ∧
        (m ≠ c.markerFrameStart → m ≠ c.markerPixelRow → m ≠ c.markerFrameEnd →
          classify c D = .unknown)) ∧
    (c.counterWidth = 32 → (D.length < 4 → classify c D = .unknown) ∧
      ∀ b0 b1 b2 b3 tail, D = b0 :: b1 :: b2 :: b3 :: tail →
        headerWord c D 0 = some (b0.toNat + b1.toNat * 256 + b2.toNat * 65536 + b3.toNat * 16777216))

/-- `20_memory.md` R42: a header word is the bytes at its offset, the least significant at the lowest: four of
them at the counter width 32, and a pixel row's three words are read so at the offsets 4, 8 and 12 of the
spec's layout. R42 is about 32-bit words: the first clause at another counter width (`00_scope.md` R7) is the
model's choice, log entry 2. -/
def Obligations.HeaderWordsAreLittleEndian : Prop :=
  (∀ (c : Config) (D : Datagram) (off v : Nat), headerWord c D off = some v →
    ∀ i, i < c.wordBytes → ∃ b, D[off + i]? = some b ∧ v / 256 ^ i % 256 = b.toNat) ∧
  (∀ (c : Config) (D : Datagram) (off v : Nat), c.counterWidth = 32 → (headerWord c D off = some v ↔
    ∃ b0 b1 b2 b3, D[off]? = some b0 ∧ D[off + 1]? = some b1 ∧ D[off + 2]? = some b2 ∧
      D[off + 3]? = some b3 ∧
      v = b0.toNat + b1.toNat * 256 + b2.toNat * 65536 + b3.toNat * 16777216)) ∧
  (∀ (c : Config) (D : Datagram), c.Wf → c.specLayout → 16 ≤ D.length → D.length ≤ c.maxDgramLen →
    headerWord c D 0 = some c.markerPixelRow →
    ∃ r k z, headerWord c D 4 = some r ∧ headerWord c D 8 = some k ∧ headerWord c D 12 = some z ∧
      decode c D = .ok (.pixelRow (.full r k z (D.drop 16)))) ∧
  headerWord Config.default [0xEF, 0xBE, 0xAD, 0xDE] 0 = some Config.default.markerFrameStart

/-- Decoding is total (`30_encoding.md` R70, an inference the spec marks as derived): every byte sequence the
host may present is one well-formed operation, of the kind the classifier gives it. At widths other than 32
and 8 it rests on the model's choice, log entry 2. -/
def Obligations.DecodingIsTotal : Prop :=
  ∀ (c : Config) (D : Datagram), c.Wf → D.length ≤ c.maxDgramLen →
    ∃ i, decode c D = .ok i ∧ i.kind? = some (classify c D) ∧ i.wf c = true

/-- Decode and encode agree: every well-formed operation of every datagram kind has an encoding, and decoding
it gives the operation back, for every value of every operand and under all well-formed parameters
(`30_encoding.md` R57 to R66). At widths other than 32 and 8 it rests on the model's choice, log entry 2. -/
def Obligations.DecodeOfEncodeIsTheOperation : Prop :=
  ∀ (c : Config) (i : Instr), c.Wf → i.wf c = true → i.kind?.isSome = true →
    ∃ D, encode c i = some D ∧ decode c D = .ok i

/-- And the other way under the spec's header layout (`30_encoding.md` R60): no byte of a datagram is
dropped. -/
def Obligations.EncodeOfDecodeIsTheDatagram : Prop :=
  ∀ (c : Config) (D : Datagram) (i : Instr), c.Wf → c.specLayout → decode c D = .ok i →
    encode c i = some D

/-- Words and datagrams written out from `30_encoding.md` R58 to R60 and `95_test_vectors.md` decode to the
operations they stand for. The first three clauses are about `decodeTableWord`, which pads a table row's word
with zero bytes to a whole header: that is the model's choice (log entry 11), made so that the row's word is a
pixel row with its three header words; the four bytes alone are a truncated row (R82, R88), as the fourth
clause says. -/
def Obligations.WrittenOutWordsDecode : Prop :=
  decodeTableWord 32 0xDEADBEEF = some (.frameStart (List.replicate 12 0)) ∧
  decodeTableWord 32 0xBEEFBEEF = some (.pixelRow (.full 0 0 0 [])) ∧
  decodeTableWord 32 0xDEADDEAD = some (.frameEnd (List.replicate 12 0)) ∧
  decode Config.default [0xEF, 0xBE, 0xEF, 0xBE] = .ok (.pixelRow (.short [])) ∧
  decode Config.default [0xDE, 0xAD, 0xBE, 0xEF] = .ok (.unknown 0xEFBEADDE []) ∧
  decode Config.default [0xEF, 0xBE, 0xAD] = .ok (.unknownShort [0xEF, 0xBE, 0xAD]) ∧
  decode Config.default [0xEF, 0xBE, 0xEF, 0xBE, 0x06, 0, 0, 0, 0x01, 0, 0, 0, 0x01, 0, 0, 0,
    0xF8, 0x00, 0x07, 0xE0] = .ok (.pixelRow (.full 6 1 1 [0xF8, 0x00, 0x07, 0xE0]))

/-- The program notation (`30_encoding.md` R72; decision D21) and the decoder agree: under the spec's layout a
`PRX` line is read back as its three words, and its row's samples are the line's, in order, the first
`sampleCount` of them. -/
def Obligations.ProgramLinesDecodeToTheirRow : Prop :=
  ∀ (c : Config) (rr cr n : BitVec 32) (samples : List Sample) (D : Datagram), c.Wf → c.specLayout →
    expandLine c (.prx rr cr n samples) = .datagram D → D.length ≤ c.maxDgramLen →
    ∃ payload, decode c D = .ok (.pixelRow (.full rr.toNat cr.toNat n.toNat payload)) ∧
      payload.length = 2 * samples.length ∧
      rowSamples c n.toNat payload = samples.take (sampleCount c n.toNat)

/-! ### Records and views -/

/-- The status view (`10_state.md` R27; decision D17): RUN in bit 0, PUB_VALID in bit 1, and between steps,
where the assembler is `ACCUMULATING`, zero in every other bit; `ROWS` is the counter, which fits its 32 bits
in every state that meets the invariant. -/
def Obligations.StatusViewShowsRunAndValid : Prop :=
  ∀ s : State, s.asmState = .accumulating → s.rowsWritten < 2 ^ 32 →
    (statusView s).toNat =
      (match s.runState with | .running => 0 | .stopped => 1) + (if s.pubValid then 2 else 0) ∧
    (rowsView s).toNat = s.rowsWritten

/-- The layout of the two record types (`60_exceptions.md` R131; decision D15), with the kind codes of
`41_classifier.md` R86 (decision D16) and the condition codes of `60_exceptions.md` R124 (decision D15), each
written out. -/
def Obligations.RecordFieldsAreWhereTheLayoutPutsThem : Prop :=
  (∀ (k : PacketKind) (e : Condition) (p : Bool) (oor : BitVec 32),
    (resultRecord k e p oor).toNat =
      (kindCode k).toNat * 2 + (conditionCode e).toNat * 8 + (if p then 64 else 0) +
        oor.toNat * 4294967296) ∧
  (∀ e : Condition, (termRecord e).toNat = 1 + (conditionCode e).toNat * 8) ∧
  ((kindCode .frameStart).toNat = 0 ∧ (kindCode .pixelRow).toNat = 1 ∧ (kindCode .unknown).toNat = 2 ∧
    (kindCode .frameEnd).toNat = 3) ∧
  ((conditionCode .none).toNat = 0 ∧ (conditionCode .unknownMarker).toNat = 1 ∧
    (conditionCode .truncatedPacket).toNat = 2 ∧ (conditionCode .outOfRangeWrite).toNat = 3 ∧
    (conditionCode .transportClosed).toNat = 4 ∧ (conditionCode .stopRequested).toNat = 5)

/-- `60_exceptions.md` R131 and R132 (decision D15, and an inference the spec marks as derived): every datagram
taken puts out exactly one record, of a combination the spec lists, under parameters whose rejected count fits
the record (R97); STOP and CLOSE put out one termination
record while `RUNNING`; nothing else puts one out. -/
def Obligations.EmittedRecordsAreTheListedOnes : Prop :=
  ∀ (i : Instr) (s t : State), exec i s = .next t →
    (s.cfg.Wf → s.runState = .running → i.kind?.isSome = true →
      ∃ r, t.results = s.results ++ [r] ∧ IsResultRecord r) ∧
    (s.runState = .running → i = .stop → t.results = s.results ++ [termRecord .stopRequested]) ∧
    (s.runState = .running → i = .close → t.results = s.results ++ [termRecord .transportClosed]) ∧
    ((s.runState = .stopped ∨ (i.kind? = none ∧ i ≠ .stop ∧ i ≠ .close)) → t.results = s.results)

/-- The consumer's byte view of a frame (`20_memory.md` R39, R41; decision D6): three bytes a cell, red,
green, blue, which at the channel width 8 are the cell's bits 23 to 16, 15 to 8 and 7 to 0; and no byte past
the last cell. The view at another channel width is the model's choice, log entry 2. -/
def Obligations.FrameBytesAreRedGreenBlue : Prop :=
  ∀ (c : Config) (m : Memory) (n : Nat), n = c.channelWidth →
    (∀ col row p, col < c.frameW → row < c.frameH → p = row * c.frameW + col →
      ∃ v, cellAt c m col row = some v ∧
        frameByte c m (3 * p) = some (v / 2 ^ (2 * n) % 2 ^ n) ∧
        frameByte c m (3 * p + 1) = some (v / 2 ^ n % 2 ^ n) ∧
        frameByte c m (3 * p + 2) = some (v % 2 ^ n)) ∧
    (∀ a, 3 * c.frameW * c.frameH ≤ a → frameByte c m a = none)

/-! ### Whole-machine statements -/

/-- The invariant holds right after reset. -/
def Obligations.InvariantHoldsAtReset : Prop := State.reset.Inv

/-- The invariant of a state between steps (`10_state.md` R19, R21, R22, R24; `20_memory.md` R50) is kept by
every step, from every state that has it. -/
def Obligations.StepKeepsTheInvariant : Prop :=
  ∀ s t : State, s.Inv → step s = .next t → t.Inv

/-- The parameters are configuration (`10_state.md` R26; decision D23): no step changes them. -/
def Obligations.NoStepChangesTheParameters : Prop :=
  ∀ s t : State, step s = .next t → t.cfg = s.cfg

/-- `43_frame_assembler.md` R114, an inference the spec marks as derived: a stretch of offers that holds `n`
complete pixel rows, any truncated and UNKNOWN datagrams and any ACQUIREs among them, but no FS and no counted
FE, and that starts with `ROWS_WRITTEN = k`, publishes `(k + n) / ROWS_PER_FRAME` times and ends with
`(k + n) mod ROWS_PER_FRAME`, whatever rows they are. -/
def Obligations.RowsPublishOncePerFrame : Prop :=
  ∀ (stretch rest : List Offer) (s : State) (n : Nat), s.Inv → s.runState = .running →
    s.inputs = stretch ++ rest → (∀ o ∈ stretch, o.inStretch s.cfg = true) →
    n = stretch.countP (fun o => o.isRow s.cfg) →
    ∃ t, runSteps stretch.length s = .next t ∧ t.inputs = rest ∧ t.runState = .running ∧
      t.rowsWritten = (s.rowsWritten + n) % s.cfg.rowsPerFrame ∧
      t.frameReady.length = s.frameReady.length + (s.rowsWritten + n) / s.cfg.rowsPerFrame

/-- The consumer never disturbs the receiver (`10_state.md` R32, `44_receiver_control.md` R123): a run over any
offers and the run over the same offers less every ACQUIRE end with the block in the same state and with the
same records, notifications and held datagrams. -/
def Obligations.AcquiresDoNotDisturbTheBlock : Prop :=
  ∀ s t : State, runSteps s.inputs.length s = .next t →
    ∃ t', runSteps (withoutAcquires s).inputs.length (withoutAcquires s) = .next t' ∧
      SameBlock t t' ∧ t.results = t'.results ∧ t.frameReady = t'.frameReady ∧ t.held = t'.held

/-- Nothing put out is ever read back (`60_exceptions.md` R138, `10_state.md` R25): from two states that agree
on the block and the parameters, whatever their outputs, an operation leaves states that agree on the block,
and it appends the same records, the same notifications and the same ACQUIRE answers to both, and hands back
the same value if it hands one back. That the outputs are kept as lists is log entry 9. -/
def Obligations.OutputsAreNeverReadBack : Prop :=
  ∀ (i : Instr) (s s' t t' : State), SameBlock s s' → s.cfg = s'.cfg →
    exec i s = .next t → exec i s' = .next t' →
    SameBlock t t' ∧
    (∃ records, t.results = s.results ++ records ∧ t'.results = s'.results ++ records) ∧
    (∃ frames, t.frameReady = s.frameReady ++ frames ∧ t'.frameReady = s'.frameReady ++ frames) ∧
    (∃ answers, t.acquired = s.acquired ++ answers ∧ t'.acquired = s'.acquired ++ answers) ∧
    ((t.subReturn = s.subReturn ∧ t'.subReturn = s'.subReturn) ∨ t.subReturn = t'.subReturn)
end

