-- ==== Sys2Proof/Laws/Converter.lean ====
section
/-! SUPPORT. CONVERT as arithmetic (`40_color_converter.md` R73 to R75): the fields of a sample, the channels
of a cell. -/

namespace Sys2Proof.Machine

theorem red5_eq (x : Sample) : red5 x = x.toNat / 2048 := by
  unfold red5
  rw [BitVec.extractLsb'_toNat, Nat.shiftRight_eq_div_pow]
  have := x.isLt
  omega

theorem green6_eq (x : Sample) : green6 x = x.toNat / 32 % 64 := by
  unfold green6
  rw [BitVec.extractLsb'_toNat, Nat.shiftRight_eq_div_pow]

theorem blue5_eq (x : Sample) : blue5 x = x.toNat % 32 := by
  unfold blue5
  rw [BitVec.extractLsb'_toNat, Nat.shiftRight_eq_div_pow]
  simp

theorem red5_le (x : Sample) : red5 x ≤ 31 := by
  rw [red5_eq]
  have := x.isLt
  omega

theorem green6_le (x : Sample) : green6 x ≤ 63 := by
  rw [green6_eq]
  omega

theorem blue5_le (x : Sample) : blue5 x ≤ 31 := by
  rw [blue5_eq]
  omega

theorem channelMax_lt (c : Config) : c.channelMax < 2 ^ c.channelWidth := by
  have := Nat.two_pow_pos c.channelWidth
  unfold Config.channelMax
  omega

/-- Every field fits a channel (`Config.Wf`). -/
theorem le_channelMax {c : Config} (hc : c.Wf) : 63 ≤ c.channelMax := by
  have h : 2 ^ 6 ≤ 2 ^ c.channelWidth := Nat.pow_le_pow_right (by omega) hc.channelFine
  unfold Config.channelMax
  omega

/-- A field at most its maximum scales into the channel's width, so nothing is lost (R73, R76). -/
theorem scaleChannel_lt {c : Config} {x d : Nat} (h : x ≤ d) (hd : 0 < d) :
    scaleChannel c x d < 2 ^ c.channelWidth := by
  have : x * c.channelMax / d ≤ c.channelMax := by
    rw [Nat.div_le_iff_le_mul_add_pred hd]
    have := Nat.mul_le_mul_right c.channelMax h
    omega
  have := channelMax_lt c
  unfold scaleChannel
  omega

/-- A larger field scales to at least as much. -/
theorem scaleChannel_mono {c : Config} {x y d : Nat} (h : x ≤ y) : scaleChannel c x d ≤ scaleChannel c y d :=
  Nat.div_le_div_right (Nat.mul_le_mul_right _ h)

/-- Each channel of a packed cell, and the cell's width (`20_memory.md` R39). -/
theorem cell_packCell {c : Config} {r g b : Nat} (hr : r < 2 ^ c.channelWidth) (hg : g < 2 ^ c.channelWidth)
    (hb : b < 2 ^ c.channelWidth) :
    cellRed c (packCell c r g b) = r ∧ cellGreen c (packCell c r g b) = g ∧ cellBlue c (packCell c r g b) = b ∧
      packCell c r g b < 2 ^ (3 * c.channelWidth) := by
  have h2 : 2 ^ (2 * c.channelWidth) = 2 ^ c.channelWidth * 2 ^ c.channelWidth := by
    rw [Nat.two_mul, Nat.pow_add]
  have h3 : 2 ^ (3 * c.channelWidth) = 2 ^ c.channelWidth * (2 ^ c.channelWidth * 2 ^ c.channelWidth) := by
    rw [show 3 * c.channelWidth = c.channelWidth + 2 * c.channelWidth by omega, Nat.pow_add, h2]
  simp only [cellRed, cellGreen, cellBlue, packCell, h2, h3]
  generalize 2 ^ c.channelWidth = n at *
  have e : r * (n * n) + g * n + b = n * (r * n + g) + b := by ring
  have hn : 0 < n := by omega
  have hgn : r * n + g < n * n := by
    calc r * n + g < r * n + n := by omega
      _ = (r + 1) * n := by rw [Nat.succ_mul]
      _ ≤ n * n := Nat.mul_le_mul_right _ hr
  rw [e, ← Nat.div_div_eq_div_mul, Nat.mul_add_div hn, Nat.div_eq_of_lt hb, Nat.add_zero, Nat.mul_add_mod,
    Nat.mod_eq_of_lt hb, Nat.mul_comm r n, Nat.mul_add_div hn, Nat.div_eq_of_lt hg, Nat.add_zero,
    Nat.mod_eq_of_lt hr, Nat.mul_add_mod, Nat.mod_eq_of_lt hg]
  refine ⟨rfl, rfl, rfl, ?_⟩
  rw [Nat.mul_comm n r]
  calc n * (r * n + g) + b < n * (r * n + g) + n := by omega
    _ = n * (r * n + g + 1) := by ring
    _ ≤ n * (n * n) := Nat.mul_le_mul_left _ hgn

/-- CONVERT, said once: the three channels of the cell, and its width. -/
theorem convertSample_spec (c : Config) (x : Sample) :
    cellRed c (convertSample c x) = scaleChannel c (red5 x) 31 ∧
    cellGreen c (convertSample c x) = scaleChannel c (green6 x) 63 ∧
    cellBlue c (convertSample c x) = scaleChannel c (blue5 x) 31 ∧
    convertSample c x < 2 ^ (3 * c.channelWidth) :=
  cell_packCell (scaleChannel_lt (red5_le x) (by omega)) (scaleChannel_lt (green6_le x) (by omega))
    (scaleChannel_lt (blue5_le x) (by omega))

end Sys2Proof.Machine
end

