-- ==== Sys2Proof/Laws/Operands.lean ====
section
/-! SUPPORT. The byte primitives of `00_scope.md` R9, the header words, the operands of a pixel row and the
sample list of a payload. -/

namespace Sys2Proof

@[simp] theorem leBytes_length (n v : Nat) : (leBytes n v).length = n := by
  induction n generalizing v with
  | zero => rfl
  | succ n ih => simp [leBytes, ih]

/-- The value of bytes is below `256` to their number. -/
theorem leNat_lt (bs : List Byte) : leNat bs < 256 ^ bs.length := by
  induction bs with
  | nil => simp [leNat]
  | cons b rest ih =>
    have := b.isLt
    simp only [leNat, List.length_cons, Nat.pow_succ]
    omega

/-- The bytes of a value, read back. -/
theorem leNat_leBytes {n v : Nat} (h : v < 256 ^ n) : leNat (leBytes n v) = v := by
  induction n generalizing v with
  | zero => simp [leBytes, leNat]; omega
  | succ n ih =>
    have hd : v / 256 < 256 ^ n := by
      rw [Nat.div_lt_iff_lt_mul (by omega), ← Nat.pow_succ]
      exact h
    simp only [leBytes, leNat, ih hd, BitVec.toNat_ofNat]
    omega

/-- The bytes of the value of some bytes are those bytes. -/
theorem leBytes_leNat (bs : List Byte) : leBytes bs.length (leNat bs) = bs := by
  induction bs with
  | nil => rfl
  | cons b rest ih =>
    have := b.isLt
    have hdiv : (b.toNat + 256 * leNat rest) / 256 = leNat rest := by omega
    simp only [List.length_cons, leBytes, leNat, hdiv, ih, List.cons.injEq, and_true]
    apply BitVec.eq_of_toNat_eq
    rw [BitVec.toNat_ofNat]
    omega

/-- A word is defined exactly when its bytes are there. -/
theorem leWord_isSome {n : Nat} {D : List Byte} {off : Nat} :
    (leWord n D off).isSome = true ↔ off + n ≤ D.length := by
  unfold leWord
  split <;> simp_all

theorem leWord_eq_none {n : Nat} {D : List Byte} {off : Nat} : leWord n D off = none ↔ D.length < off + n := by
  rw [← Option.not_isSome_iff_eq_none, leWord_isSome]
  omega

theorem leWord_of_le {n : Nat} {D : List Byte} {off : Nat} (h : off + n ≤ D.length) :
    leWord n D off = some (leNat ((D.drop off).take n)) := if_pos h

/-- The one inversion of a word read: its bytes are `leBytes` of it, and it fits them. -/
theorem leWord_cases {n : Nat} {D : List Byte} {off v : Nat} (h : leWord n D off = some v) :
    off + n ≤ D.length ∧ v < 256 ^ n ∧ D.drop off = leBytes n v ++ D.drop (off + n) := by
  unfold leWord at h
  split at h
  · rename_i hle
    simp only [Option.some.injEq] at h
    have hlen : ((D.drop off).take n).length = n := by simp; omega
    have hlt := leNat_lt ((D.drop off).take n)
    have hbs := leBytes_leNat ((D.drop off).take n)
    rw [hlen, h] at hlt hbs
    refine ⟨hle, hlt, ?_⟩
    rw [hbs, ← List.drop_drop, List.take_append_drop]
  · cases h

/-- A word read depends on the bytes from its offset on. -/
theorem leWord_drop {n : Nat} {D : List Byte} {k off : Nat} (h : k ≤ D.length) :
    leWord n (D.drop k) off = leWord n D (k + off) := by
  unfold leWord
  have : off + n ≤ D.length - k ↔ k + off + n ≤ D.length := by omega
  simp only [List.drop_drop, List.length_drop, this]

theorem leWord_leBytes {n v : Nat} (h : v < 256 ^ n) (t : List Byte) :
    leWord n (leBytes n v ++ t) 0 = some v := by
  rw [leWord_of_le (by simp), List.drop_zero, List.take_left' (leBytes_length n v), leNat_leBytes h]

/-! ### Header words -/

/-- The bytes of a header word hold exactly the values of its width. -/
theorem wordRange_eq {c : Config} (hc : c.Wf) : c.wordRange = 256 ^ c.wordBytes := by
  rw [Config.wordRange, hc.wordWhole, Nat.pow_mul]

@[simp] theorem wordWire_length (c : Config) (v : Nat) : (wordWire c v).length = c.wordBytes := leBytes_length _ _

theorem headerWord_isSome {c : Config} {D : Datagram} {off : Nat} :
    (headerWord c D off).isSome = true ↔ off + c.wordBytes ≤ D.length := leWord_isSome

theorem headerWord_eq_none {c : Config} {D : Datagram} {off : Nat} :
    headerWord c D off = none ↔ D.length < off + c.wordBytes := leWord_eq_none

/-- The one inversion of a header word read. -/
theorem headerWord_cases {c : Config} (hc : c.Wf) {D : Datagram} {off v : Nat}
    (h : headerWord c D off = some v) :
    off + c.wordBytes ≤ D.length ∧ v < c.wordRange ∧
      D.drop off = wordWire c v ++ D.drop (off + c.wordBytes) := by
  rw [wordRange_eq hc]
  exact leWord_cases h

/-- A header word on the wire, read back. -/
theorem headerWord_wordWire {c : Config} (hc : c.Wf) {v : Nat} (hv : v < c.wordRange) (t : List Byte) :
    headerWord c (wordWire c v ++ t) 0 = some v := by
  rw [wordRange_eq hc] at hv
  exact leWord_leBytes hv t

/-- A datagram that holds a marker is the marker's bytes and the rest. -/
theorem eq_wordWire_append {c : Config} (hc : c.Wf) {D : Datagram} {m : Nat} (h : headerWord c D 0 = some m) :
    D = wordWire c m ++ D.drop c.wordBytes := by
  simpa using (headerWord_cases hc h).2.2

/-- `BE16` is defined exactly for `off + 2 ≤ L`. -/
theorem be16_isSome {D : List Byte} {off : Nat} : (be16 D off).isSome = true ↔ off + 2 ≤ D.length := by
  unfold be16
  have hlen : (D.drop off).length = D.length - off := List.length_drop
  rcases h : D.drop off with _ | ⟨b0, _ | ⟨b1, t⟩⟩ <;>
    rw [h] at hlen <;> simp at hlen ⊢ <;> omega

namespace Machine

theorem wrapWord_eq (c : Config) (v : Nat) : wrapWord c v = v % 2 ^ c.counterWidth := rfl

/-- A value that fits is its own residue. -/
theorem wrapWord_of_lt {c : Config} {v : Nat} (h : v < c.wordRange) : wrapWord c v = v := Nat.mod_eq_of_lt h

theorem wordRange_pos (c : Config) : 0 < c.wordRange := Nat.two_pow_pos _

theorem wrapWord_lt (c : Config) (v : Nat) : wrapWord c v < c.wordRange := Nat.mod_lt _ (wordRange_pos c)

theorem rowIndex_lt (c : Config) (r : Nat) : rowIndex c r < c.wordRange := wrapWord_lt _ _

theorem sampleCount_lt (c : Config) (z : Nat) : sampleCount c z < c.wordRange := wrapWord_lt _ _

/-- Different raw words name different rows. -/
theorem rowIndex_inj {c : Config} {a b : Nat} (ha : a < c.wordRange) (hb : b < c.wordRange)
    (h : rowIndex c a = rowIndex c b) : a = b := by
  simp only [rowIndex, lessOne, wrapWord] at h
  have ha' := Nat.mod_eq_of_lt ha
  have hb' := Nat.mod_eq_of_lt hb
  have h1 := congrArg (fun x => (x + 1) % c.wordRange) h
  simp only [Nat.mod_add_mod] at h1
  have hpos := wordRange_pos c
  rw [show a + (c.wordRange - 1) + 1 = a + c.wordRange by omega,
    show b + (c.wordRange - 1) + 1 = b + c.wordRange by omega, Nat.add_mod_right, Nat.add_mod_right] at h1
  omega

/-- Sample `i` of a payload is the `BE16` at `2i` (`30_encoding.md` R64). -/
theorem samplesOf_getElem? (p : List Byte) (i : Nat) : (samplesOf p)[i]? = be16 p (2 * i) := by
  induction p using samplesOf.induct generalizing i with
  | case1 hi lo rest ih =>
    cases i with
    | zero => rfl
    | succ i =>
      rw [samplesOf, List.getElem?_cons_succ, ih]
      simp [be16, show 2 * (i + 1) = 2 * i + 2 by omega]
  | case2 p hp =>
    rw [samplesOf, List.getElem?_nil]
    · symm
      rw [← Option.not_isSome_iff_eq_none, be16_isSome]
      rcases p with _ | ⟨a, _ | ⟨b, t⟩⟩
      · simp
      · simp
      · exact absurd rfl (hp a b t)
    · exact hp

/-- Every whole byte pair is a sample. -/
theorem samplesOf_length (p : List Byte) : (samplesOf p).length = p.length / 2 := by
  induction p using samplesOf.induct with
  | case1 hi lo rest ih => simp [samplesOf, ih]; omega
  | case2 p hp =>
    rcases p with _ | ⟨a, _ | ⟨b, t⟩⟩
    · rfl
    · simp [samplesOf]
    · exact absurd rfl (hp a b t)

theorem payloadTruncated_eq_false {c : Config} {z : Nat} {p : List Byte} :
    payloadTruncated c z p = false ↔ 2 * sampleCount c z ≤ p.length := by
  simp [payloadTruncated]

/-- A complete row has exactly `sampleCount` samples. -/
theorem rowSamples_length {c : Config} {z : Nat} {p : List Byte} (h : payloadTruncated c z p = false) :
    (rowSamples c z p).length = sampleCount c z := by
  rw [payloadTruncated_eq_false] at h
  rw [rowSamples, List.length_take, samplesOf_length]
  omega

/-- Sample `i` of a complete row is the `BE16` at `2i` of its payload. -/
theorem rowSamples_getElem? {c : Config} {z : Nat} {p : List Byte} {i : Nat}
    (hi : i < sampleCount c z) : (rowSamples c z p)[i]? = be16 p (2 * i) := by
  rw [rowSamples, List.getElem?_take_of_lt hi, samplesOf_getElem?]

end Machine

end Sys2Proof
end

