-- ==== Sys2Proof/Laws/Decode.lean ====
section
/-! SUPPORT. The decoder said once, and the marker map. -/

namespace Sys2Proof

/-- The marker map answers UNKNOWN exactly on the markers that are not recognised (`30_encoding.md` R67). -/
theorem kindOfMarker_unknown {c : Config} {m : Nat} :
    kindOfMarker c m = .unknown ↔ c.recognised m = false := by
  unfold kindOfMarker Config.recognised
  by_cases h1 : m = c.markerFrameStart <;> by_cases h2 : m = c.markerPixelRow <;>
    by_cases h3 : m = c.markerFrameEnd <;> cases c.frameEndEn <;> simp_all

theorem kindOfMarker_start {c : Config} : kindOfMarker c c.markerFrameStart = .frameStart := if_pos rfl

theorem kindOfMarker_row {c : Config} (hc : c.Wf) : kindOfMarker c c.markerPixelRow = .pixelRow := by
  rw [kindOfMarker, if_neg hc.startNeRow.symm, if_pos rfl]

theorem kindOfMarker_end {c : Config} (hc : c.Wf) (he : c.frameEndEn = true) :
    kindOfMarker c c.markerFrameEnd = .frameEnd := by
  rw [kindOfMarker, if_neg hc.startNeEnd.symm, if_neg hc.rowNeEnd.symm, if_pos ⟨he, rfl⟩]

theorem decode_tooLong {c : Config} {D : Datagram} (h : c.maxDgramLen < D.length) :
    decode c D = .error .longerThanMax := if_pos h

theorem decode_short {c : Config} {D : Datagram} (hmax : D.length ≤ c.maxDgramLen) (h : headerWord c D 0 = none) :
    decode c D = .ok (.unknownShort D) := by
  rw [decode, if_neg (by omega), h]

theorem decode_marked {c : Config} {D : Datagram} {m : Nat} (hmax : D.length ≤ c.maxDgramLen)
    (h : headerWord c D 0 = some m) : decode c D = .ok (decodeMarked c m D) := by
  rw [decode, if_neg (by omega), h]

/-- A datagram as long as the header has its three words. -/
theorem decodeRowBody_full {c : Config} (hc : c.Wf) {D : Datagram} (h : c.hdrLen ≤ D.length) :
    ∃ r k z, headerWord c D c.offRow = some r ∧ headerWord c D c.offCol = some k ∧
      headerWord c D c.offSize = some z ∧ decodeRowBody c D = .full r k z (D.drop c.hdrLen) := by
  obtain ⟨r, hr⟩ := Option.isSome_iff_exists.1 (headerWord_isSome.2 (Nat.le_trans hc.rowInHeader h))
  obtain ⟨k, hk⟩ := Option.isSome_iff_exists.1 (headerWord_isSome.2 (Nat.le_trans hc.colInHeader h))
  obtain ⟨z, hz⟩ := Option.isSome_iff_exists.1 (headerWord_isSome.2 (Nat.le_trans hc.sizeInHeader h))
  refine ⟨r, k, z, hr, hk, hz, ?_⟩
  rw [decodeRowBody, if_neg (by omega), hr, hk, hz]

theorem decodeRowBody_short {c : Config} {D : Datagram} (h : D.length < c.hdrLen) :
    decodeRowBody c D = .short (D.drop c.wordBytes) := if_pos h

/-- When a datagram decodes, what its bytes are: the one inversion of the decoder. -/
theorem decode_cases {c : Config} {D : Datagram} {i : Instr} (h : decode c D = .ok i) :
    D.length ≤ c.maxDgramLen ∧
      ((headerWord c D 0 = none ∧ i = .unknownShort D) ∨ ∃ m, headerWord c D 0 = some m ∧ i = decodeMarked c m D) := by
  unfold decode at h
  split at h
  · cases h
  · refine ⟨by omega, ?_⟩
    split at h
    · exact Or.inl ⟨‹_›, by cases h; rfl⟩
    · exact Or.inr ⟨_, ‹_›, by cases h; rfl⟩

end Sys2Proof
end

