-- ==== Sys2Proof/Laws/Encode.lean ====
section
/-! SUPPORT. The header of a pixel-row datagram as the encoder lays it out: its length, and what a header word
reads as after bytes are put at an offset. -/

namespace Sys2Proof

theorem putBytes_length {off : Nat} {bytes D : List Byte} (h : off + bytes.length ≤ D.length) :
    (putBytes off bytes D).length = D.length := by
  simp [putBytes]
  omega

/-- Bytes put at an offset leave every other byte alone. -/
theorem putBytes_getElem?_of_out {off i : Nat} {bytes D : List Byte} (h : off + bytes.length ≤ D.length)
    (hi : i < off ∨ off + bytes.length ≤ i) : (putBytes off bytes D)[i]? = D[i]? := by
  have h1 : (D.take off).length = off := by simp; omega
  unfold putBytes
  rw [List.append_assoc]
  rcases hi with hi | hi
  · rw [List.getElem?_append_left (by omega), List.getElem?_take_of_lt hi]
  · rw [List.getElem?_append_right (by omega), List.getElem?_append_right (by omega), h1, List.getElem?_drop]
    congr 1
    omega

/-- A header word is a function of its own bytes. -/
theorem headerWord_congr {c : Config} (hc : c.Wf) {D E : List Byte} {off : Nat}
    (h : ∀ i, i < c.wordBytes → D[off + i]? = E[off + i]?) : headerWord c D off = headerWord c E off := by
  have hs : (D.drop off).take c.wordBytes = (E.drop off).take c.wordBytes := by
    apply List.ext_getElem?
    intro i
    by_cases hi : i < c.wordBytes
    · rw [List.getElem?_take_of_lt hi, List.getElem?_take_of_lt hi, List.getElem?_drop, List.getElem?_drop, h i hi]
    · simp [hi]
  have hl := congrArg List.length hs
  simp only [List.length_take, List.length_drop] at hl
  have := hc.wordPos
  unfold headerWord leWord
  rw [hs]
  by_cases h1 : off + c.wordBytes ≤ D.length
  · rw [if_pos h1, if_pos (by omega)]
  · rw [if_neg h1, if_neg (by omega)]

/-- A header word that lies in the first of two parts. -/
theorem headerWord_append {c : Config} {A B : List Byte} {off : Nat} (h : off + c.wordBytes ≤ A.length) :
    headerWord c (A ++ B) off = headerWord c A off := by
  unfold headerWord leWord
  rw [if_pos (by simp; omega), if_pos h, List.drop_append_of_le_length (by omega),
    List.take_append_of_le_length (by simp; omega)]

/-- Read after put, at the same offset. -/
theorem headerWord_putBytes_same {c : Config} (hc : c.Wf) {off v : Nat} {D : List Byte} (hv : v < c.wordRange)
    (h : off + c.wordBytes ≤ D.length) : headerWord c (putBytes off (wordWire c v) D) off = some v := by
  have h1 : (D.take off).length = off := by simp; omega
  have hl : (putBytes off (wordWire c v) D).length = D.length := putBytes_length (by simpa using h)
  have hd : (putBytes off (wordWire c v) D).drop off =
      wordWire c v ++ D.drop (off + (wordWire c v).length) := by
    unfold putBytes
    rw [List.append_assoc]
    exact List.drop_left' h1
  have := headerWord_wordWire hc hv (D.drop (off + (wordWire c v).length))
  rw [← hd, headerWord, leWord_drop (by omega)] at this
  exact this

/-- Read after put, at an offset whose word shares no byte with it. -/
theorem headerWord_putBytes_other {c : Config} (hc : c.Wf) {off o v : Nat} {D : List Byte}
    (h : off + c.wordBytes ≤ D.length) (ho : Config.apart c.wordBytes o off) :
    headerWord c (putBytes off (wordWire c v) D) o = headerWord c D o := by
  refine headerWord_congr hc fun i hi => putBytes_getElem?_of_out (by simpa using h) ?_
  simp only [wordWire_length]
  unfold Config.apart at ho
  omega

/-- The header has `HDR_LEN` bytes. -/
theorem rowHeader_length {c : Config} (hc : c.Wf) (r k z : Nat) : (rowHeader c r k z).length = c.hdrLen := by
  have h0 : (wordWire c c.markerPixelRow ++ List.replicate (c.hdrLen - c.wordBytes) (0 : Byte)).length =
      c.hdrLen := by
    have := hc.rowInHeader
    simp
    omega
  have h1 : ∀ (off v : Nat) (D : List Byte), off + c.wordBytes ≤ c.hdrLen → D.length = c.hdrLen →
      (putBytes off (wordWire c v) D).length = c.hdrLen := by
    intro off v D h hD
    rw [putBytes_length (by simpa [hD] using h), hD]
  exact h1 _ _ _ hc.sizeInHeader (h1 _ _ _ hc.colInHeader (h1 _ _ _ hc.rowInHeader h0))

end Sys2Proof
end

