-- ==== Sys2Proof/Laws/Memory.lean ====
section
/-! SUPPORT. The laws of a frame store: what a cell reads as after a write, that every operation keeps the
canonical form and the frame's bounds, and that canonical stores with equal cells are equal data. -/

namespace Sys2Proof.Machine.Memory

theorem wf_nil : wf [] = true := rfl

/-- The canonical form, entry by entry. -/
theorem wf_cons {a : Nat} {v : Nat} {m : Memory} :
    wf ((a, v) :: m) = true ↔ v ≠ unlisted ∧ (∀ e ∈ m, a < e.1) ∧ wf m = true := by
  induction m generalizing a v with
  | nil => simp [wf]
  | cons e rest ih =>
    obtain ⟨b, w⟩ := e
    have hrest := ih (a := b) (v := w)
    simp only [wf, Bool.and_eq_true, bne_iff_ne, ne_eq, decide_eq_true_eq, List.mem_cons]
    constructor
    · rintro ⟨⟨hv, hab⟩, hwf⟩
      refine ⟨hv, ?_, hwf⟩
      rintro e (rfl | he)
      · exact hab
      · exact Nat.lt_trans hab ((hrest.1 hwf).2.1 e he)
    · rintro ⟨hv, hlt, hwf⟩
      exact ⟨⟨hv, hlt (b, w) (Or.inl rfl)⟩, hwf⟩

@[simp] theorem read_nil (a : Nat) : read a [] = unlisted := rfl

@[simp] theorem read_cons (a b : Nat) (w : Nat) (m : Memory) :
    read a ((b, w) :: m) = if a = b then w else read a m := rfl

/-- A cell below every listed index is unlisted. -/
theorem read_of_lt {a : Nat} {m : Memory} (h : ∀ e ∈ m, a < e.1) : read a m = unlisted := by
  induction m with
  | nil => rfl
  | cons e rest ih =>
    obtain ⟨b, w⟩ := e
    have hb : a < b := h (b, w) (by simp)
    rw [read_cons, if_neg (Nat.ne_of_lt hb)]
    exact ih fun e he => h e (by simp [he])

theorem read_push {a b : Nat} {v : Nat} {m : Memory} (h : read a m = unlisted) :
    read b (push a v m) = if b = a then v else read b m := by
  unfold push
  split
  · split
    · simp_all
    · rfl
  · rfl

theorem mem_push {a : Nat} {v : Nat} {m : Memory} {e : Nat × Nat} (h : e ∈ push a v m) :
    e = (a, v) ∨ e ∈ m := by
  unfold push at h
  split at h
  · exact Or.inr h
  · rcases List.mem_cons.1 h with rfl | h
    · exact Or.inl rfl
    · exact Or.inr h

theorem wf_push {a : Nat} {v : Nat} {m : Memory} (hlt : ∀ e ∈ m, a < e.1) (hm : wf m = true) :
    wf (push a v m) = true := by
  unfold push
  split
  · exact hm
  · exact wf_cons.2 ⟨‹_›, hlt, hm⟩

theorem mem_write {a : Nat} {v : Nat} {m : Memory} {e : Nat × Nat} (h : e ∈ write a v m) :
    e = (a, v) ∨ e ∈ m := by
  induction m with
  | nil => exact mem_push h
  | cons x rest ih =>
    obtain ⟨b, w⟩ := x
    unfold write at h
    split at h
    · exact mem_push h
    · split at h
      · exact (mem_push h).imp_right (List.mem_cons_of_mem _)
      · rcases List.mem_cons.1 h with rfl | h
        · exact Or.inr (by simp)
        · exact (ih h).imp_right (List.mem_cons_of_mem _)

/-- A write keeps the canonical form. -/
theorem wf_write {a : Nat} {v : Nat} {m : Memory} (hm : wf m = true) : wf (write a v m) = true := by
  induction m with
  | nil => exact wf_push (by simp) rfl
  | cons x rest ih =>
    obtain ⟨b, w⟩ := x
    obtain ⟨hw, hlt, hrest⟩ := wf_cons.1 hm
    unfold write
    split
    · rename_i hab
      refine wf_push ?_ hm
      intro e he
      rcases List.mem_cons.1 he with rfl | he
      · exact hab
      · exact Nat.lt_trans hab (hlt e he)
    · split
      · subst_vars
        exact wf_push hlt hrest
      · refine wf_cons.2 ⟨hw, ?_, ih hrest⟩
        intro e he
        rcases mem_write he with rfl | h
        · simp only; omega
        · exact hlt e h

/-- Read after write, at every cell. -/
theorem read_write {a b : Nat} {v : Nat} {m : Memory} (hm : wf m = true) :
    read b (write a v m) = if b = a then v else read b m := by
  induction m with
  | nil => exact read_push rfl
  | cons x rest ih =>
    obtain ⟨d, w⟩ := x
    obtain ⟨_, hlt, hrest⟩ := wf_cons.1 hm
    unfold write
    split
    · rename_i had
      refine read_push (read_of_lt ?_)
      intro e he
      rcases List.mem_cons.1 he with rfl | he
      · exact had
      · exact Nat.lt_trans had (hlt e he)
    · split
      · subst_vars
        rw [read_push (read_of_lt hlt)]
        split <;> simp_all
      · rename_i hne
        rw [read_cons, ih hrest, read_cons]
        split
        · rw [if_neg (by omega)]
        · rfl

theorem inFrame_iff {c : Config} {m : Memory} :
    inFrame c m = true ↔ ∀ e ∈ m, e.1 < c.frameW * c.frameH ∧ e.2 < 2 ^ (3 * c.channelWidth) := by
  simp [inFrame]

/-- A write of a cell's value to a cell of the frame stays in the frame. -/
theorem inFrame_write {c : Config} {a v : Nat} {m : Memory} (ha : a < c.frameW * c.frameH)
    (hv : v < 2 ^ (3 * c.channelWidth)) (hm : inFrame c m = true) : inFrame c (write a v m) = true := by
  rw [inFrame_iff] at *
  intro e he
  rcases mem_write he with rfl | h
  · exact ⟨ha, hv⟩
  · exact hm e h

/-- Canonical stores whose cells read alike are equal data. -/
theorem ext_of_read {m n : Memory} (hm : wf m = true) (hn : wf n = true)
    (h : ∀ a, read a m = read a n) : m = n := by
  induction m generalizing n with
  | nil =>
    cases n with
    | nil => rfl
    | cons y rest =>
      obtain ⟨b, w⟩ := y
      have := h b
      simp at this
      exact absurd this.symm (wf_cons.1 hn).1
  | cons x rest ih =>
    obtain ⟨a, v⟩ := x
    obtain ⟨hv, hlt, hrest⟩ := wf_cons.1 hm
    cases n with
    | nil =>
      have := h a
      simp at this
      exact absurd this hv
    | cons y rest' =>
      obtain ⟨b, w⟩ := y
      obtain ⟨hw, hlt', hrest'⟩ := wf_cons.1 hn
      have hab : a = b := by
        rcases Nat.lt_trichotomy a b with hl | he | hg
        · have := h a
          rw [read_cons, if_pos rfl, read_of_lt] at this
          · exact absurd this hv
          · intro e he
            rcases List.mem_cons.1 he with rfl | he
            · exact hl
            · exact Nat.lt_trans hl (hlt' e he)
        · exact he
        · have := h b
          rw [read_cons b b, if_pos rfl, read_of_lt] at this
          · exact absurd this.symm hw
          · intro e he
            rcases List.mem_cons.1 he with rfl | he
            · exact hg
            · exact Nat.lt_trans hg (hlt e he)
      subst hab
      have hvw : v = w := by simpa using h a
      subst hvw
      congr 1
      refine ih hrest hrest' fun d => ?_
      by_cases hd : d = a
      · subst hd
        rw [read_of_lt hlt, read_of_lt hlt']
      · simpa [hd] using h d

end Sys2Proof.Machine.Memory
end

