-- ==== Sys2Proof/Laws/State.lean ====
section
/-! SUPPORT. One lemma per field per named update of the state, each true by unfolding, so that no later
proof opens a record update. -/

namespace Sys2Proof.Machine

/-! ### setRunState -/

@[simp] theorem setRunState_runState (r : RunState) (s : State) : (setRunState r s).runState = r := rfl
@[simp] theorem setRunState_asmState (r : RunState) (s : State) : (setRunState r s).asmState = s.asmState := rfl
@[simp] theorem setRunState_rowsWritten (r : RunState) (s : State) : (setRunState r s).rowsWritten = s.rowsWritten := rfl
@[simp] theorem setRunState_working (r : RunState) (s : State) : (setRunState r s).working = s.working := rfl
@[simp] theorem setRunState_published (r : RunState) (s : State) : (setRunState r s).published = s.published := rfl
@[simp] theorem setRunState_pubValid (r : RunState) (s : State) : (setRunState r s).pubValid = s.pubValid := rfl
@[simp] theorem setRunState_cfg (r : RunState) (s : State) : (setRunState r s).cfg = s.cfg := rfl
@[simp] theorem setRunState_inputs (r : RunState) (s : State) : (setRunState r s).inputs = s.inputs := rfl
@[simp] theorem setRunState_eventIndex (r : RunState) (s : State) : (setRunState r s).eventIndex = s.eventIndex := rfl
@[simp] theorem setRunState_held (r : RunState) (s : State) : (setRunState r s).held = s.held := rfl
@[simp] theorem setRunState_results (r : RunState) (s : State) : (setRunState r s).results = s.results := rfl
@[simp] theorem setRunState_frameReady (r : RunState) (s : State) : (setRunState r s).frameReady = s.frameReady := rfl
@[simp] theorem setRunState_acquired (r : RunState) (s : State) : (setRunState r s).acquired = s.acquired := rfl
@[simp] theorem setRunState_subReturn (r : RunState) (s : State) : (setRunState r s).subReturn = s.subReturn := rfl

/-! ### setAsmState -/

@[simp] theorem setAsmState_runState (a : AsmState) (s : State) : (setAsmState a s).runState = s.runState := rfl
@[simp] theorem setAsmState_asmState (a : AsmState) (s : State) : (setAsmState a s).asmState = a := rfl
@[simp] theorem setAsmState_rowsWritten (a : AsmState) (s : State) : (setAsmState a s).rowsWritten = s.rowsWritten := rfl
@[simp] theorem setAsmState_working (a : AsmState) (s : State) : (setAsmState a s).working = s.working := rfl
@[simp] theorem setAsmState_published (a : AsmState) (s : State) : (setAsmState a s).published = s.published := rfl
@[simp] theorem setAsmState_pubValid (a : AsmState) (s : State) : (setAsmState a s).pubValid = s.pubValid := rfl
@[simp] theorem setAsmState_cfg (a : AsmState) (s : State) : (setAsmState a s).cfg = s.cfg := rfl
@[simp] theorem setAsmState_inputs (a : AsmState) (s : State) : (setAsmState a s).inputs = s.inputs := rfl
@[simp] theorem setAsmState_eventIndex (a : AsmState) (s : State) : (setAsmState a s).eventIndex = s.eventIndex := rfl
@[simp] theorem setAsmState_held (a : AsmState) (s : State) : (setAsmState a s).held = s.held := rfl
@[simp] theorem setAsmState_results (a : AsmState) (s : State) : (setAsmState a s).results = s.results := rfl
@[simp] theorem setAsmState_frameReady (a : AsmState) (s : State) : (setAsmState a s).frameReady = s.frameReady := rfl
@[simp] theorem setAsmState_acquired (a : AsmState) (s : State) : (setAsmState a s).acquired = s.acquired := rfl
@[simp] theorem setAsmState_subReturn (a : AsmState) (s : State) : (setAsmState a s).subReturn = s.subReturn := rfl

/-! ### setWorking -/

@[simp] theorem setWorking_runState (m : Memory) (s : State) : (setWorking m s).runState = s.runState := rfl
@[simp] theorem setWorking_asmState (m : Memory) (s : State) : (setWorking m s).asmState = s.asmState := rfl
@[simp] theorem setWorking_rowsWritten (m : Memory) (s : State) : (setWorking m s).rowsWritten = s.rowsWritten := rfl
@[simp] theorem setWorking_working (m : Memory) (s : State) : (setWorking m s).working = m := rfl
@[simp] theorem setWorking_published (m : Memory) (s : State) : (setWorking m s).published = s.published := rfl
@[simp] theorem setWorking_pubValid (m : Memory) (s : State) : (setWorking m s).pubValid = s.pubValid := rfl
@[simp] theorem setWorking_cfg (m : Memory) (s : State) : (setWorking m s).cfg = s.cfg := rfl
@[simp] theorem setWorking_inputs (m : Memory) (s : State) : (setWorking m s).inputs = s.inputs := rfl
@[simp] theorem setWorking_eventIndex (m : Memory) (s : State) : (setWorking m s).eventIndex = s.eventIndex := rfl
@[simp] theorem setWorking_held (m : Memory) (s : State) : (setWorking m s).held = s.held := rfl
@[simp] theorem setWorking_results (m : Memory) (s : State) : (setWorking m s).results = s.results := rfl
@[simp] theorem setWorking_frameReady (m : Memory) (s : State) : (setWorking m s).frameReady = s.frameReady := rfl
@[simp] theorem setWorking_acquired (m : Memory) (s : State) : (setWorking m s).acquired = s.acquired := rfl
@[simp] theorem setWorking_subReturn (m : Memory) (s : State) : (setWorking m s).subReturn = s.subReturn := rfl

/-! ### countRow -/

@[simp] theorem countRow_runState (s : State) : (countRow s).runState = s.runState := rfl
@[simp] theorem countRow_asmState (s : State) : (countRow s).asmState = s.asmState := rfl
@[simp] theorem countRow_rowsWritten (s : State) : (countRow s).rowsWritten = wrapWord s.cfg (s.rowsWritten + 1) := rfl
@[simp] theorem countRow_working (s : State) : (countRow s).working = s.working := rfl
@[simp] theorem countRow_published (s : State) : (countRow s).published = s.published := rfl
@[simp] theorem countRow_pubValid (s : State) : (countRow s).pubValid = s.pubValid := rfl
@[simp] theorem countRow_cfg (s : State) : (countRow s).cfg = s.cfg := rfl
@[simp] theorem countRow_inputs (s : State) : (countRow s).inputs = s.inputs := rfl
@[simp] theorem countRow_eventIndex (s : State) : (countRow s).eventIndex = s.eventIndex := rfl
@[simp] theorem countRow_held (s : State) : (countRow s).held = s.held := rfl
@[simp] theorem countRow_results (s : State) : (countRow s).results = s.results := rfl
@[simp] theorem countRow_frameReady (s : State) : (countRow s).frameReady = s.frameReady := rfl
@[simp] theorem countRow_acquired (s : State) : (countRow s).acquired = s.acquired := rfl
@[simp] theorem countRow_subReturn (s : State) : (countRow s).subReturn = s.subReturn := rfl

/-! ### clearRows -/

@[simp] theorem clearRows_runState (s : State) : (clearRows s).runState = s.runState := rfl
@[simp] theorem clearRows_asmState (s : State) : (clearRows s).asmState = s.asmState := rfl
@[simp] theorem clearRows_rowsWritten (s : State) : (clearRows s).rowsWritten = 0 := rfl
@[simp] theorem clearRows_working (s : State) : (clearRows s).working = s.working := rfl
@[simp] theorem clearRows_published (s : State) : (clearRows s).published = s.published := rfl
@[simp] theorem clearRows_pubValid (s : State) : (clearRows s).pubValid = s.pubValid := rfl
@[simp] theorem clearRows_cfg (s : State) : (clearRows s).cfg = s.cfg := rfl
@[simp] theorem clearRows_inputs (s : State) : (clearRows s).inputs = s.inputs := rfl
@[simp] theorem clearRows_eventIndex (s : State) : (clearRows s).eventIndex = s.eventIndex := rfl
@[simp] theorem clearRows_held (s : State) : (clearRows s).held = s.held := rfl
@[simp] theorem clearRows_results (s : State) : (clearRows s).results = s.results := rfl
@[simp] theorem clearRows_frameReady (s : State) : (clearRows s).frameReady = s.frameReady := rfl
@[simp] theorem clearRows_acquired (s : State) : (clearRows s).acquired = s.acquired := rfl
@[simp] theorem clearRows_subReturn (s : State) : (clearRows s).subReturn = s.subReturn := rfl

/-! ### swapPublished -/

@[simp] theorem swapPublished_runState (m : Memory) (s : State) : (swapPublished m s).runState = s.runState := rfl
@[simp] theorem swapPublished_asmState (m : Memory) (s : State) : (swapPublished m s).asmState = s.asmState := rfl
@[simp] theorem swapPublished_rowsWritten (m : Memory) (s : State) : (swapPublished m s).rowsWritten = s.rowsWritten := rfl
@[simp] theorem swapPublished_working (m : Memory) (s : State) : (swapPublished m s).working = s.working := rfl
@[simp] theorem swapPublished_published (m : Memory) (s : State) : (swapPublished m s).published = some m := rfl
@[simp] theorem swapPublished_pubValid (m : Memory) (s : State) : (swapPublished m s).pubValid = true := rfl
@[simp] theorem swapPublished_cfg (m : Memory) (s : State) : (swapPublished m s).cfg = s.cfg := rfl
@[simp] theorem swapPublished_inputs (m : Memory) (s : State) : (swapPublished m s).inputs = s.inputs := rfl
@[simp] theorem swapPublished_eventIndex (m : Memory) (s : State) : (swapPublished m s).eventIndex = s.eventIndex := rfl
@[simp] theorem swapPublished_held (m : Memory) (s : State) : (swapPublished m s).held = s.held := rfl
@[simp] theorem swapPublished_results (m : Memory) (s : State) : (swapPublished m s).results = s.results := rfl
@[simp] theorem swapPublished_frameReady (m : Memory) (s : State) : (swapPublished m s).frameReady = s.frameReady := rfl
@[simp] theorem swapPublished_acquired (m : Memory) (s : State) : (swapPublished m s).acquired = s.acquired := rfl
@[simp] theorem swapPublished_subReturn (m : Memory) (s : State) : (swapPublished m s).subReturn = s.subReturn := rfl

/-! ### notifyFrame -/

@[simp] theorem notifyFrame_runState (m : Memory) (s : State) : (notifyFrame m s).runState = s.runState := rfl
@[simp] theorem notifyFrame_asmState (m : Memory) (s : State) : (notifyFrame m s).asmState = s.asmState := rfl
@[simp] theorem notifyFrame_rowsWritten (m : Memory) (s : State) : (notifyFrame m s).rowsWritten = s.rowsWritten := rfl
@[simp] theorem notifyFrame_working (m : Memory) (s : State) : (notifyFrame m s).working = s.working := rfl
@[simp] theorem notifyFrame_published (m : Memory) (s : State) : (notifyFrame m s).published = s.published := rfl
@[simp] theorem notifyFrame_pubValid (m : Memory) (s : State) : (notifyFrame m s).pubValid = s.pubValid := rfl
@[simp] theorem notifyFrame_cfg (m : Memory) (s : State) : (notifyFrame m s).cfg = s.cfg := rfl
@[simp] theorem notifyFrame_inputs (m : Memory) (s : State) : (notifyFrame m s).inputs = s.inputs := rfl
@[simp] theorem notifyFrame_eventIndex (m : Memory) (s : State) : (notifyFrame m s).eventIndex = s.eventIndex := rfl
@[simp] theorem notifyFrame_held (m : Memory) (s : State) : (notifyFrame m s).held = s.held := rfl
@[simp] theorem notifyFrame_results (m : Memory) (s : State) : (notifyFrame m s).results = s.results := rfl
@[simp] theorem notifyFrame_frameReady (m : Memory) (s : State) : (notifyFrame m s).frameReady = s.frameReady ++ [m] := rfl
@[simp] theorem notifyFrame_acquired (m : Memory) (s : State) : (notifyFrame m s).acquired = s.acquired := rfl
@[simp] theorem notifyFrame_subReturn (m : Memory) (s : State) : (notifyFrame m s).subReturn = s.subReturn := rfl

/-! ### emitResult -/

@[simp] theorem emitResult_runState (r : Record) (s : State) : (emitResult r s).runState = s.runState := rfl
@[simp] theorem emitResult_asmState (r : Record) (s : State) : (emitResult r s).asmState = s.asmState := rfl
@[simp] theorem emitResult_rowsWritten (r : Record) (s : State) : (emitResult r s).rowsWritten = s.rowsWritten := rfl
@[simp] theorem emitResult_working (r : Record) (s : State) : (emitResult r s).working = s.working := rfl
@[simp] theorem emitResult_published (r : Record) (s : State) : (emitResult r s).published = s.published := rfl
@[simp] theorem emitResult_pubValid (r : Record) (s : State) : (emitResult r s).pubValid = s.pubValid := rfl
@[simp] theorem emitResult_cfg (r : Record) (s : State) : (emitResult r s).cfg = s.cfg := rfl
@[simp] theorem emitResult_inputs (r : Record) (s : State) : (emitResult r s).inputs = s.inputs := rfl
@[simp] theorem emitResult_eventIndex (r : Record) (s : State) : (emitResult r s).eventIndex = s.eventIndex := rfl
@[simp] theorem emitResult_held (r : Record) (s : State) : (emitResult r s).held = s.held := rfl
@[simp] theorem emitResult_results (r : Record) (s : State) : (emitResult r s).results = s.results ++ [r] := rfl
@[simp] theorem emitResult_frameReady (r : Record) (s : State) : (emitResult r s).frameReady = s.frameReady := rfl
@[simp] theorem emitResult_acquired (r : Record) (s : State) : (emitResult r s).acquired = s.acquired := rfl
@[simp] theorem emitResult_subReturn (r : Record) (s : State) : (emitResult r s).subReturn = s.subReturn := rfl

/-! ### raiseCondition -/

@[simp] theorem raiseCondition_runState (k : PacketKind) (e : Condition) (s : State) : (raiseCondition k e s).runState = s.runState := rfl
@[simp] theorem raiseCondition_asmState (k : PacketKind) (e : Condition) (s : State) : (raiseCondition k e s).asmState = s.asmState := rfl
@[simp] theorem raiseCondition_rowsWritten (k : PacketKind) (e : Condition) (s : State) : (raiseCondition k e s).rowsWritten = s.rowsWritten := rfl
@[simp] theorem raiseCondition_working (k : PacketKind) (e : Condition) (s : State) : (raiseCondition k e s).working = s.working := rfl
@[simp] theorem raiseCondition_published (k : PacketKind) (e : Condition) (s : State) : (raiseCondition k e s).published = s.published := rfl
@[simp] theorem raiseCondition_pubValid (k : PacketKind) (e : Condition) (s : State) : (raiseCondition k e s).pubValid = s.pubValid := rfl
@[simp] theorem raiseCondition_cfg (k : PacketKind) (e : Condition) (s : State) : (raiseCondition k e s).cfg = s.cfg := rfl
@[simp] theorem raiseCondition_inputs (k : PacketKind) (e : Condition) (s : State) : (raiseCondition k e s).inputs = s.inputs := rfl
@[simp] theorem raiseCondition_eventIndex (k : PacketKind) (e : Condition) (s : State) : (raiseCondition k e s).eventIndex = s.eventIndex := rfl
@[simp] theorem raiseCondition_held (k : PacketKind) (e : Condition) (s : State) : (raiseCondition k e s).held = s.held := rfl
@[simp] theorem raiseCondition_results (k : PacketKind) (e : Condition) (s : State) : (raiseCondition k e s).results = s.results ++ [resultRecord k e false 0] := rfl
@[simp] theorem raiseCondition_frameReady (k : PacketKind) (e : Condition) (s : State) : (raiseCondition k e s).frameReady = s.frameReady := rfl
@[simp] theorem raiseCondition_acquired (k : PacketKind) (e : Condition) (s : State) : (raiseCondition k e s).acquired = s.acquired := rfl
@[simp] theorem raiseCondition_subReturn (k : PacketKind) (e : Condition) (s : State) : (raiseCondition k e s).subReturn = s.subReturn := rfl

/-! ### answerAcquire -/

@[simp] theorem answerAcquire_runState (f : Option Memory) (s : State) : (answerAcquire f s).runState = s.runState := rfl
@[simp] theorem answerAcquire_asmState (f : Option Memory) (s : State) : (answerAcquire f s).asmState = s.asmState := rfl
@[simp] theorem answerAcquire_rowsWritten (f : Option Memory) (s : State) : (answerAcquire f s).rowsWritten = s.rowsWritten := rfl
@[simp] theorem answerAcquire_working (f : Option Memory) (s : State) : (answerAcquire f s).working = s.working := rfl
@[simp] theorem answerAcquire_published (f : Option Memory) (s : State) : (answerAcquire f s).published = s.published := rfl
@[simp] theorem answerAcquire_pubValid (f : Option Memory) (s : State) : (answerAcquire f s).pubValid = s.pubValid := rfl
@[simp] theorem answerAcquire_cfg (f : Option Memory) (s : State) : (answerAcquire f s).cfg = s.cfg := rfl
@[simp] theorem answerAcquire_inputs (f : Option Memory) (s : State) : (answerAcquire f s).inputs = s.inputs := rfl
@[simp] theorem answerAcquire_eventIndex (f : Option Memory) (s : State) : (answerAcquire f s).eventIndex = s.eventIndex := rfl
@[simp] theorem answerAcquire_held (f : Option Memory) (s : State) : (answerAcquire f s).held = s.held := rfl
@[simp] theorem answerAcquire_results (f : Option Memory) (s : State) : (answerAcquire f s).results = s.results := rfl
@[simp] theorem answerAcquire_frameReady (f : Option Memory) (s : State) : (answerAcquire f s).frameReady = s.frameReady := rfl
@[simp] theorem answerAcquire_acquired (f : Option Memory) (s : State) : (answerAcquire f s).acquired = s.acquired ++ [f] := rfl
@[simp] theorem answerAcquire_subReturn (f : Option Memory) (s : State) : (answerAcquire f s).subReturn = s.subReturn := rfl

/-! ### returnSub -/

@[simp] theorem returnSub_runState (r : SubReturn) (s : State) : (returnSub r s).runState = s.runState := rfl
@[simp] theorem returnSub_asmState (r : SubReturn) (s : State) : (returnSub r s).asmState = s.asmState := rfl
@[simp] theorem returnSub_rowsWritten (r : SubReturn) (s : State) : (returnSub r s).rowsWritten = s.rowsWritten := rfl
@[simp] theorem returnSub_working (r : SubReturn) (s : State) : (returnSub r s).working = s.working := rfl
@[simp] theorem returnSub_published (r : SubReturn) (s : State) : (returnSub r s).published = s.published := rfl
@[simp] theorem returnSub_pubValid (r : SubReturn) (s : State) : (returnSub r s).pubValid = s.pubValid := rfl
@[simp] theorem returnSub_cfg (r : SubReturn) (s : State) : (returnSub r s).cfg = s.cfg := rfl
@[simp] theorem returnSub_inputs (r : SubReturn) (s : State) : (returnSub r s).inputs = s.inputs := rfl
@[simp] theorem returnSub_eventIndex (r : SubReturn) (s : State) : (returnSub r s).eventIndex = s.eventIndex := rfl
@[simp] theorem returnSub_held (r : SubReturn) (s : State) : (returnSub r s).held = s.held := rfl
@[simp] theorem returnSub_results (r : SubReturn) (s : State) : (returnSub r s).results = s.results := rfl
@[simp] theorem returnSub_frameReady (r : SubReturn) (s : State) : (returnSub r s).frameReady = s.frameReady := rfl
@[simp] theorem returnSub_acquired (r : SubReturn) (s : State) : (returnSub r s).acquired = s.acquired := rfl
@[simp] theorem returnSub_subReturn (r : SubReturn) (s : State) : (returnSub r s).subReturn = r := rfl

/-! ### publishFrame -/

@[simp] theorem publishFrame_runState (s : State) : (publishFrame s).runState = s.runState := rfl
@[simp] theorem publishFrame_asmState (s : State) : (publishFrame s).asmState = .accumulating := rfl
@[simp] theorem publishFrame_rowsWritten (s : State) : (publishFrame s).rowsWritten = 0 := rfl
@[simp] theorem publishFrame_working (s : State) : (publishFrame s).working = s.working := rfl
@[simp] theorem publishFrame_published (s : State) : (publishFrame s).published = some s.working := rfl
@[simp] theorem publishFrame_pubValid (s : State) : (publishFrame s).pubValid = true := rfl
@[simp] theorem publishFrame_cfg (s : State) : (publishFrame s).cfg = s.cfg := rfl
@[simp] theorem publishFrame_inputs (s : State) : (publishFrame s).inputs = s.inputs := rfl
@[simp] theorem publishFrame_eventIndex (s : State) : (publishFrame s).eventIndex = s.eventIndex := rfl
@[simp] theorem publishFrame_held (s : State) : (publishFrame s).held = s.held := rfl
@[simp] theorem publishFrame_results (s : State) : (publishFrame s).results = s.results := rfl
@[simp] theorem publishFrame_frameReady (s : State) : (publishFrame s).frameReady = s.frameReady ++ [s.working] := rfl
@[simp] theorem publishFrame_acquired (s : State) : (publishFrame s).acquired = s.acquired := rfl
@[simp] theorem publishFrame_subReturn (s : State) : (publishFrame s).subReturn = s.subReturn := rfl

/-! ### resetBlock -/

@[simp] theorem resetBlock_runState (s : State) : (resetBlock s).runState = .running := rfl
@[simp] theorem resetBlock_asmState (s : State) : (resetBlock s).asmState = .accumulating := rfl
@[simp] theorem resetBlock_rowsWritten (s : State) : (resetBlock s).rowsWritten = 0 := rfl
@[simp] theorem resetBlock_working (s : State) : (resetBlock s).working = [] := rfl
@[simp] theorem resetBlock_published (s : State) : (resetBlock s).published = none := rfl
@[simp] theorem resetBlock_pubValid (s : State) : (resetBlock s).pubValid = false := rfl
@[simp] theorem resetBlock_cfg (s : State) : (resetBlock s).cfg = s.cfg := rfl
@[simp] theorem resetBlock_inputs (s : State) : (resetBlock s).inputs = s.inputs := rfl
@[simp] theorem resetBlock_eventIndex (s : State) : (resetBlock s).eventIndex = s.eventIndex := rfl
@[simp] theorem resetBlock_held (s : State) : (resetBlock s).held = s.held := rfl
@[simp] theorem resetBlock_results (s : State) : (resetBlock s).results = s.results := rfl
@[simp] theorem resetBlock_frameReady (s : State) : (resetBlock s).frameReady = s.frameReady := rfl
@[simp] theorem resetBlock_acquired (s : State) : (resetBlock s).acquired = s.acquired := rfl
@[simp] theorem resetBlock_subReturn (s : State) : (resetBlock s).subReturn = s.subReturn := rfl

/-! ### takeOffer -/

@[simp] theorem takeOffer_runState (s : State) : (takeOffer s).runState = s.runState := rfl
@[simp] theorem takeOffer_asmState (s : State) : (takeOffer s).asmState = s.asmState := rfl
@[simp] theorem takeOffer_rowsWritten (s : State) : (takeOffer s).rowsWritten = s.rowsWritten := rfl
@[simp] theorem takeOffer_working (s : State) : (takeOffer s).working = s.working := rfl
@[simp] theorem takeOffer_published (s : State) : (takeOffer s).published = s.published := rfl
@[simp] theorem takeOffer_pubValid (s : State) : (takeOffer s).pubValid = s.pubValid := rfl
@[simp] theorem takeOffer_cfg (s : State) : (takeOffer s).cfg = s.cfg := rfl
@[simp] theorem takeOffer_inputs (s : State) : (takeOffer s).inputs = s.inputs.tail := rfl
@[simp] theorem takeOffer_eventIndex (s : State) : (takeOffer s).eventIndex = s.eventIndex + 1 := rfl
@[simp] theorem takeOffer_held (s : State) : (takeOffer s).held = s.held := rfl
@[simp] theorem takeOffer_results (s : State) : (takeOffer s).results = s.results := rfl
@[simp] theorem takeOffer_frameReady (s : State) : (takeOffer s).frameReady = s.frameReady := rfl
@[simp] theorem takeOffer_acquired (s : State) : (takeOffer s).acquired = s.acquired := rfl
@[simp] theorem takeOffer_subReturn (s : State) : (takeOffer s).subReturn = s.subReturn := rfl

/-! ### turnAway -/

@[simp] theorem turnAway_runState (D : Datagram) (s : State) : (turnAway D s).runState = s.runState := rfl
@[simp] theorem turnAway_asmState (D : Datagram) (s : State) : (turnAway D s).asmState = s.asmState := rfl
@[simp] theorem turnAway_rowsWritten (D : Datagram) (s : State) : (turnAway D s).rowsWritten = s.rowsWritten := rfl
@[simp] theorem turnAway_working (D : Datagram) (s : State) : (turnAway D s).working = s.working := rfl
@[simp] theorem turnAway_published (D : Datagram) (s : State) : (turnAway D s).published = s.published := rfl
@[simp] theorem turnAway_pubValid (D : Datagram) (s : State) : (turnAway D s).pubValid = s.pubValid := rfl
@[simp] theorem turnAway_cfg (D : Datagram) (s : State) : (turnAway D s).cfg = s.cfg := rfl
@[simp] theorem turnAway_inputs (D : Datagram) (s : State) : (turnAway D s).inputs = s.inputs.tail := rfl
@[simp] theorem turnAway_eventIndex (D : Datagram) (s : State) : (turnAway D s).eventIndex = s.eventIndex := rfl
@[simp] theorem turnAway_held (D : Datagram) (s : State) : (turnAway D s).held = s.held ++ [D] := rfl
@[simp] theorem turnAway_results (D : Datagram) (s : State) : (turnAway D s).results = s.results := rfl
@[simp] theorem turnAway_frameReady (D : Datagram) (s : State) : (turnAway D s).frameReady = s.frameReady := rfl
@[simp] theorem turnAway_acquired (D : Datagram) (s : State) : (turnAway D s).acquired = s.acquired := rfl
@[simp] theorem turnAway_subReturn (D : Datagram) (s : State) : (turnAway D s).subReturn = s.subReturn := rfl

/-! ### offerNext -/

@[simp] theorem offerNext_runState (D : Datagram) (s : State) : (offerNext D s).runState = .running := rfl
@[simp] theorem offerNext_asmState (D : Datagram) (s : State) : (offerNext D s).asmState = s.asmState := rfl
@[simp] theorem offerNext_rowsWritten (D : Datagram) (s : State) : (offerNext D s).rowsWritten = s.rowsWritten := rfl
@[simp] theorem offerNext_working (D : Datagram) (s : State) : (offerNext D s).working = s.working := rfl
@[simp] theorem offerNext_published (D : Datagram) (s : State) : (offerNext D s).published = s.published := rfl
@[simp] theorem offerNext_pubValid (D : Datagram) (s : State) : (offerNext D s).pubValid = s.pubValid := rfl
@[simp] theorem offerNext_cfg (D : Datagram) (s : State) : (offerNext D s).cfg = s.cfg := rfl
@[simp] theorem offerNext_inputs (D : Datagram) (s : State) : (offerNext D s).inputs = .datagram D :: s.inputs := rfl
@[simp] theorem offerNext_eventIndex (D : Datagram) (s : State) : (offerNext D s).eventIndex = s.eventIndex := rfl
@[simp] theorem offerNext_held (D : Datagram) (s : State) : (offerNext D s).held = s.held := rfl
@[simp] theorem offerNext_results (D : Datagram) (s : State) : (offerNext D s).results = s.results := rfl
@[simp] theorem offerNext_frameReady (D : Datagram) (s : State) : (offerNext D s).frameReady = s.frameReady := rfl
@[simp] theorem offerNext_acquired (D : Datagram) (s : State) : (offerNext D s).acquired = s.acquired := rfl
@[simp] theorem offerNext_subReturn (D : Datagram) (s : State) : (offerNext D s).subReturn = s.subReturn := rfl

end Sys2Proof.Machine
end

