-- ==== Sys2Proof/Laws/Ops.lean ====
section
/-! SUPPORT. What each shared operation can do, said once: WriteWorking, the sample loop, ROW_DONE. -/

namespace Sys2Proof.Machine

/-! ### Cells -/

theorem cellIndex_lt {c : Config} {col row : Nat} (hcol : col < c.frameW) (hrow : row < c.frameH) :
    cellIndex c col row < c.frameW * c.frameH := by
  unfold cellIndex
  calc row * c.frameW + col < row * c.frameW + c.frameW := by omega
    _ = (row + 1) * c.frameW := by rw [Nat.succ_mul]
    _ ≤ c.frameH * c.frameW := Nat.mul_le_mul_right _ hrow
    _ = c.frameW * c.frameH := Nat.mul_comm _ _

/-- Different cells of a frame have different indexes. -/
theorem cellIndex_inj {c : Config} {col row col' row' : Nat} (hcol : col < c.frameW)
    (hcol' : col' < c.frameW) (h : cellIndex c col row = cellIndex c col' row') : col = col' ∧ row = row' := by
  unfold cellIndex at h
  have hpos : 0 < c.frameW := by omega
  have hrow : row = row' := by
    have h1 : (row * c.frameW + col) / c.frameW = row := by
      rw [Nat.mul_comm, Nat.mul_add_div hpos, Nat.div_eq_of_lt hcol, Nat.add_zero]
    have h2 : (row' * c.frameW + col') / c.frameW = row' := by
      rw [Nat.mul_comm, Nat.mul_add_div hpos, Nat.div_eq_of_lt hcol', Nat.add_zero]
    rw [← h1, ← h2, h]
  subst hrow
  exact ⟨by omega, rfl⟩

/-! ### WriteWorking (`42_scanline_decoder.md` R98) -/

theorem writeWorking_rejected {c : Config} {col row : Nat} {rgb : Nat} {m : Memory}
    (h : c.frameH ≤ row ∨ c.frameW ≤ col) : writeWorking c col row rgb m = none := if_pos h

theorem writeWorking_accepted {c : Config} {col row : Nat} {rgb : Nat} {m : Memory}
    (hrow : row < c.frameH) (hcol : col < c.frameW) :
    writeWorking c col row rgb m = some (Memory.write (cellIndex c col row) rgb m) := if_neg (by omega)

/-! ### The sample loop (R93, R94, R97, R99) -/

/-- Past the frame's edge the loop only counts. -/
theorem writeSamples_rejected {c : Config} {row : Nat} (xs : List Sample) (col : Nat) (m : Memory) (k : Nat)
    (h : c.frameH ≤ row ∨ c.frameW ≤ col) : writeSamples c row col xs (m, k) = (m, k + xs.length) := by
  induction xs generalizing col k with
  | nil => rfl
  | cons x xs ih =>
    rw [writeSamples, writeWorking_rejected h]
    simp only
    rw [ih (col + 1) (k + 1) (by omega)]
    simp only [List.length_cons, Prod.mk.injEq, true_and]
    omega

/-- Inside the frame the loop writes its first sample and goes on. -/
theorem writeSamples_cons {c : Config} {row col : Nat} (x : Sample) (xs : List Sample) (m : Memory) (k : Nat)
    (hrow : row < c.frameH) (hcol : col < c.frameW) :
    writeSamples c row col (x :: xs) (m, k) =
      writeSamples c row (col + 1) xs (Memory.write (cellIndex c col row) (convertSample c x) m, k) := by
  rw [writeSamples, writeWorking_accepted hrow hcol]

/-- The loop keeps the canonical form. -/
theorem writeSamples_wf {c : Config} {row : Nat} (xs : List Sample) (col : Nat) (m : Memory) (k : Nat)
    (hm : Memory.wf m = true) : Memory.wf (writeSamples c row col xs (m, k)).1 = true := by
  induction xs generalizing col m k with
  | nil => exact hm
  | cons x xs ih =>
    by_cases h : row < c.frameH ∧ col < c.frameW
    · rw [writeSamples_cons x xs m k h.1 h.2]
      exact ih _ _ _ (Memory.wf_write hm)
    · rw [writeSamples_rejected _ _ _ _ (by omega)]
      exact hm

/-- The loop writes cells of the frame only. -/
theorem writeSamples_inFrame {c : Config} {row : Nat} (xs : List Sample) (col : Nat) (m : Memory) (k : Nat)
    (hm : Memory.inFrame c m = true) : Memory.inFrame c (writeSamples c row col xs (m, k)).1 = true := by
  induction xs generalizing col m k with
  | nil => exact hm
  | cons x xs ih =>
    by_cases h : row < c.frameH ∧ col < c.frameW
    · rw [writeSamples_cons x xs m k h.1 h.2]
      exact ih _ _ _ (Memory.inFrame_write (cellIndex_lt h.2 h.1) (convertSample_spec c x).2.2.2 hm)
    · rw [writeSamples_rejected _ _ _ _ (by omega)]
      exact hm

/-- What a cell reads as after the loop: sample `i` of the list if the cell is column `col + i` of the row and
in the frame, and otherwise what it read as before. -/
theorem read_writeSamples {c : Config} {row : Nat} (xs : List Sample) (col : Nat) (m : Memory) (k a : Nat)
    (hm : Memory.wf m = true) :
    (∀ i x, xs[i]? = some x → row < c.frameH → col + i < c.frameW → a = cellIndex c (col + i) row →
      Memory.read a (writeSamples c row col xs (m, k)).1 = convertSample c x) ∧
    ((∀ i, i < xs.length → row < c.frameH → col + i < c.frameW → a ≠ cellIndex c (col + i) row) →
      Memory.read a (writeSamples c row col xs (m, k)).1 = Memory.read a m) := by
  induction xs generalizing col m k with
  | nil => exact ⟨fun i x h => by simp at h, fun _ => rfl⟩
  | cons y xs ih =>
    by_cases h : row < c.frameH ∧ col < c.frameW
    · obtain ⟨hrow, hcol⟩ := h
      rw [writeSamples_cons y xs m k hrow hcol]
      have ih := ih (col + 1) (Memory.write (cellIndex c col row) (convertSample c y) m) k (Memory.wf_write hm)
      refine ⟨?_, ?_⟩
      · intro i x hx hr hc ha
        cases i with
        | zero =>
          simp only [List.getElem?_cons_zero, Option.some.injEq] at hx
          subst hx
          rw [ih.2, Memory.read_write hm, if_pos (by simpa using ha)]
          intro j _ _ hj hEq
          have := (cellIndex_inj (row := row) (row' := row) hc hj (ha.symm.trans hEq)).1
          omega
        | succ i =>
          refine ih.1 i x (by simpa using hx) hr (by omega) ?_
          rw [ha]
          congr 1
          omega
      · intro hout
        rw [ih.2, Memory.read_write hm, if_neg (by simpa using hout 0 (by simp) hrow hcol)]
        intro i hi hr hc ha
        refine hout (i + 1) (by simpa using hi) hr (by omega) ?_
        rw [ha]
        congr 1
        omega
    · rw [writeSamples_rejected _ _ _ _ (by omega)]
      exact ⟨fun i x _ hr hc _ => absurd ⟨hr, by omega⟩ h, fun _ => rfl⟩

/-- The rejected-write count of the loop (R97). -/
theorem writeSamples_count {c : Config} {row : Nat} (xs : List Sample) (col : Nat) (m : Memory) (k : Nat)
    (hrow : row < c.frameH) :
    (writeSamples c row col xs (m, k)).2 = k + (col + xs.length - max col c.frameW) := by
  induction xs generalizing col m k with
  | nil => simp [writeSamples]
  | cons x xs ih =>
    by_cases hcol : col < c.frameW
    · rw [writeSamples_cons x xs m k hrow hcol, ih]
      simp only [List.length_cons]
      omega
    · rw [writeSamples_rejected _ _ _ _ (by omega)]
      simp only [List.length_cons]
      omega

/-- The count of a whole row is `rejectedCount`. -/
theorem writeSamples_rejectedCount {c : Config} {row : Nat} (xs : List Sample) (m : Memory) :
    (writeSamples c row 0 xs (m, 0)).2 = rejectedCount c row xs.length := by
  unfold rejectedCount
  split
  · rw [writeSamples_rejected _ _ _ _ (by omega)]
    simp
  · rw [writeSamples_count _ _ _ _ (by omega)]
    simp

/-! ### ROW_DONE (`43_frame_assembler.md` R101) -/

theorem completeRow_publishes {s : State} (h : wrapWord s.cfg (s.rowsWritten + 1) = s.cfg.rowsPerFrame) :
    completeRow s = (publishFrame (countRow s), true) := if_pos h

theorem completeRow_counts {s : State} (h : wrapWord s.cfg (s.rowsWritten + 1) ≠ s.cfg.rowsPerFrame) :
    completeRow s = (countRow s, false) := if_neg h

/-! ### Admission -/

theorem whileRunning_running {f : State → State} {s : State} (h : s.runState = .running) :
    whileRunning f s = .next (f s) := by
  unfold whileRunning; rw [h]

theorem whileRunning_stopped {f : State → State} {s : State} (h : s.runState = .stopped) :
    whileRunning f s = .next s := by
  unfold whileRunning; rw [h]

/-- Both termination events, by run state. -/
theorem terminate_running {e : Condition} {s : State} (h : s.runState = .running) :
    terminate e s = emitResult (termRecord e) (setRunState .stopped s) := by
  unfold terminate; rw [h]

theorem terminate_stopped {e : Condition} {s : State} (h : s.runState = .stopped) : terminate e s = s := by
  unfold terminate; rw [h]

end Sys2Proof.Machine
end

