-- ==== Sys2Proof/Laws/PerInstr.lean ====
section
/-! SUPPORT. Statements made per operation of the table: `EncodedLength`, that the datagram of a well-formed
operation is not longer than `MAX_DGRAM_LEN`, so the decoder does not reject it. -/

namespace Sys2Proof

namespace Laws.EncodedLength

/-- Under parameters that stand in the relations of R7, the datagram of the operation, where it has one and
is well formed, is at most `MAX_DGRAM_LEN` bytes long (`30_encoding.md` R56). -/
def Statement (i : Instr) : Prop :=
  ∀ (c : Config) (D : Datagram), c.Wf → i.wf c = true → encode c i = some D → D.length ≤ c.maxDgramLen

theorem frameStart (g : List Byte) : Statement (.frameStart g) := by
  intro c D _ hw he
  cases he
  simpa [Instr.wf, Nat.add_comm] using hw

theorem pixelRow (body : RowBody) : Statement (.pixelRow body) := by
  intro c D hc hw he
  cases body with
  | short rest =>
    cases he
    have h := hw
    simp only [Instr.wf, RowBody.wf, Bool.and_eq_true, decide_eq_true_eq] at h
    simp
    omega
  | full r k z p =>
    cases he
    simp only [Instr.wf, RowBody.wf, Bool.and_eq_true, decide_eq_true_eq] at hw
    simpa [rowHeader_length hc] using hw.2

theorem frameEnd (g : List Byte) : Statement (.frameEnd g) := by
  intro c D _ hw he
  cases he
  simp only [Instr.wf, Bool.and_eq_true, decide_eq_true_eq] at hw
  simp
  omega

theorem unknown (m : Nat) (g : List Byte) : Statement (.unknown m g) := by
  intro c D _ hw he
  cases he
  simp only [Instr.wf, Bool.and_eq_true, decide_eq_true_eq] at hw
  simp
  omega

theorem unknownShort (b : List Byte) : Statement (.unknownShort b) := by
  intro c D _ hw he
  cases he
  simp only [Instr.wf, Bool.and_eq_true, decide_eq_true_eq] at hw
  exact hw.2

theorem stop : Statement .stop := fun _ _ _ _ he => by cases he

theorem close : Statement .close := fun _ _ _ _ he => by cases he

theorem acquire : Statement .acquire := fun _ _ _ _ he => by cases he

theorem reset : Statement .reset := fun _ _ _ _ he => by cases he

theorem convert (x : Sample) : Statement (.convert x) := fun _ _ _ _ he => by cases he

theorem rowDone : Statement .rowDone := fun _ _ _ _ he => by cases he

theorem publish : Statement .publish := fun _ _ _ _ he => by cases he

end Laws.EncodedLength

end Sys2Proof
end

