-- ==== Sys2Proof/Laws/Step.lean ====
section
/-! SUPPORT. What `exec` and `step` answer, said once: the effect of each operation as a function of the
state, and the cases of a step. -/

namespace Sys2Proof.Machine

/-- The effect of each operation, where its step is taken. -/
def effectOf : Instr → State → State
  | .frameStart _, s => publishOnMarker .frameStart s
  | .pixelRow body, s => pixelRowEffect body s
  | .frameEnd _, s => frameEndEffect s
  | .unknown _ _, s => raiseCondition .unknown .unknownMarker s
  | .unknownShort _, s => raiseCondition .unknown .unknownMarker s
  | .stop, s => terminate .stopRequested s
  | .close, s => terminate .transportClosed s
  | .acquire, s => answerAcquire (acquireAnswer s) s
  | .reset, s => resetBlock s
  | .convert smp, s => returnSub (.cell (convertSample s.cfg smp)) s
  | .rowDone, s => returnSub (.published (completeRow s).2) (completeRow s).1
  | .publish, s => publishFrame s

/-- While `RUNNING`, `exec` answers the operation's effect. -/
theorem exec_running (i : Instr) {s : State} (h : s.runState = .running) :
    exec i s = .next (effectOf i s) := by
  cases i <;> first | rfl | exact whileRunning_running h

/-- While `STOPPED`, a datagram operation changes nothing and every other operation has its effect. -/
theorem exec_stopped (i : Instr) {s : State} (h : s.runState = .stopped) :
    exec i s = .next (if i.kind?.isSome then s else effectOf i s) := by
  cases i <;> first | rfl | exact whileRunning_stopped h

/-- The one inversion of `exec`: a datagram operation left undone while `STOPPED`, or the effect. -/
theorem exec_cases {i : Instr} {s t : State} (h : exec i s = .next t) :
    (s.runState = .stopped ∧ i.kind?.isSome = true ∧ t = s) ∨
    ((s.runState = .running ∨ i.kind? = none) ∧ t = effectOf i s) := by
  cases hr : s.runState with
  | running =>
    rw [exec_running i hr] at h
    cases h
    exact Or.inr ⟨Or.inl rfl, rfl⟩
  | stopped =>
    rw [exec_stopped i hr] at h
    cases hk : i.kind? with
    | none =>
      rw [hk] at h
      cases h
      exact Or.inr ⟨Or.inr rfl, rfl⟩
    | some k =>
      rw [hk] at h
      cases h
      exact Or.inl ⟨rfl, rfl, rfl⟩

/-- A decoded row, by whether its ROW_DONE publishes. -/
theorem decodeRow_cases (row : Nat) (xs : List Sample) (s : State) :
    ∃ m oor, writeSamples s.cfg row 0 xs (s.working, 0) = (m, oor) ∧
      ((wrapWord s.cfg (s.rowsWritten + 1) = s.cfg.rowsPerFrame ∧
        decodeRow row xs s =
          emitResult (resultRecord .pixelRow (rowCondition oor) true (BitVec.ofNat 32 oor))
            (publishFrame (countRow (setWorking m s)))) ∨
       (wrapWord s.cfg (s.rowsWritten + 1) ≠ s.cfg.rowsPerFrame ∧
        decodeRow row xs s =
          emitResult (resultRecord .pixelRow (rowCondition oor) false (BitVec.ofNat 32 oor))
            (countRow (setWorking m s)))) := by
  refine ⟨_, _, rfl, ?_⟩
  by_cases h : wrapWord s.cfg (s.rowsWritten + 1) = s.cfg.rowsPerFrame
  · refine Or.inl ⟨h, ?_⟩
    simp only [decodeRow]
    rw [completeRow_publishes (by simpa using h)]
  · refine Or.inr ⟨h, ?_⟩
    simp only [decodeRow]
    rw [completeRow_counts (by simpa using h)]

/-- The effect of a pixel row: the TruncatedPacket condition, or the decoded row. -/
theorem pixelRowEffect_cases (body : RowBody) (s : State) :
    pixelRowEffect body s = raiseCondition .pixelRow .truncatedPacket s ∨
    ∃ rowRaw colRaw sizeRaw payload, body = .full rowRaw colRaw sizeRaw payload ∧
      payloadTruncated s.cfg sizeRaw payload = false ∧
      pixelRowEffect body s = decodeRow (rowIndex s.cfg rowRaw) (rowSamples s.cfg sizeRaw payload) s := by
  cases body with
  | short rest => exact Or.inl rfl
  | full rowRaw colRaw sizeRaw payload =>
    by_cases h : payloadTruncated s.cfg sizeRaw payload = true
    · exact Or.inl (if_pos h)
    · exact Or.inr ⟨rowRaw, colRaw, sizeRaw, payload, rfl, by simpa using h, if_neg h⟩

/-- An effect of `exec` keeps the parameters and the input side. -/
theorem effectOf_frame (i : Instr) (s : State) :
    (effectOf i s).cfg = s.cfg ∧ (effectOf i s).inputs = s.inputs ∧
    (effectOf i s).eventIndex = s.eventIndex ∧ (effectOf i s).held = s.held := by
  cases i with
  | pixelRow body =>
    rcases pixelRowEffect_cases body s with h | ⟨r, _, z, p, _, _, h⟩
    · simp [effectOf, h]
    · obtain ⟨m, oor, _, hd | hd⟩ := decodeRow_cases (rowIndex s.cfg r) (rowSamples s.cfg z p) s <;>
        simp [effectOf, h, hd]
  | rowDone => simp only [effectOf, completeRow]; split <;> simp
  | frameEnd g => simp only [effectOf, frameEndEffect, publishOnMarker]; split <;> simp
  | frameStart g => simp [effectOf, publishOnMarker]
  | stop => simp only [effectOf, terminate]; split <;> simp
  | close => simp only [effectOf, terminate]; split <;> simp
  | unknown m g => simp [effectOf]
  | unknownShort b => simp [effectOf]
  | acquire => simp [effectOf]
  | reset => simp [effectOf]
  | convert x => simp [effectOf]
  | publish => simp [effectOf]

theorem effectOf_cfg (i : Instr) (s : State) : (effectOf i s).cfg = s.cfg := (effectOf_frame i s).1

/-! ### Steps, by the next offer -/

theorem step_waiting {s : State} (h : s.inputs = []) : step s = .next s := by
  rw [step, fetch, h]

theorem step_stop {s : State} {rest : List Offer} (h : s.inputs = .stop :: rest) :
    step s = exec .stop (takeOffer s) := by
  rw [step, fetch, h]

theorem step_close {s : State} {rest : List Offer} (h : s.inputs = .close :: rest) :
    step s = exec .close (takeOffer s) := by
  rw [step, fetch, h]

theorem step_acquire {s : State} {rest : List Offer} (h : s.inputs = .acquire :: rest) :
    step s = exec .acquire (takeOffer s) := by
  rw [step, fetch, h]

theorem step_reset {s : State} {rest : List Offer} (h : s.inputs = .reset :: rest) :
    step s = exec .reset (takeOffer s) := by
  rw [step, fetch, h]

theorem step_datagram {s : State} {D : Datagram} {rest : List Offer} {i : Instr}
    (h : s.inputs = .datagram D :: rest) (hr : s.runState = .running) (hd : decode s.cfg D = .ok i) :
    step s = exec i (takeOffer s) := by
  simp only [step, fetch, h, admitDatagram, hr, hd]

theorem step_turnedAway {s : State} {D : Datagram} {rest : List Offer}
    (h : s.inputs = .datagram D :: rest) (hr : s.runState = .stopped) : step s = .next (turnAway D s) := by
  simp only [step, fetch, h, admitDatagram, hr]

theorem step_rejected {s : State} {D : Datagram} {rest : List Offer}
    (h : s.inputs = .datagram D :: rest) (hr : s.runState = .running) (hd : s.cfg.maxDgramLen < D.length) :
    step s = .refused .datagramTooLong := by
  simp only [step, fetch, h, admitDatagram, hr, decode_tooLong hd, refusalOf]

/-- The one inversion of `step`: it waited, it turned a datagram away, or it ran one operation. -/
theorem step_cases {s t : State} (h : step s = .next t) :
    t = s ∨ (∃ D, s.runState = .stopped ∧ t = turnAway D s) ∨ ∃ i, exec i (takeOffer s) = .next t := by
  unfold step at h
  split at h
  · cases h
    exact Or.inl rfl
  · rename_i D hf
    cases h
    refine Or.inr (Or.inl ⟨D, ?_, rfl⟩)
    unfold fetch at hf
    split at hf <;> try cases hf
    unfold admitDatagram at hf
    split at hf
    · assumption
    · split at hf <;> cases hf
  · cases h
  · exact Or.inr (Or.inr ⟨_, h⟩)

/-! ### Runs -/

theorem coreRun_next (M : Host.Core) (n : Nat) (s t : M.State) (h : M.step s = .next t) :
    Host.Core.run M (n + 1) s = Host.Core.run M n t := by
  rw [Host.Core.run.eq_2, h]

theorem coreRun_refused (M : Host.Core) (n : Nat) (s : M.State) (r : M.Refusal) (h : M.step s = .refused r) :
    Host.Core.run M (n + 1) s = .refused r := by
  rw [Host.Core.run.eq_2, h]

theorem runSteps_zero (s : State) : runSteps 0 s = .next s := rfl

theorem runSteps_next {n : Nat} {s t : State} (h : step s = .next t) : runSteps (n + 1) s = runSteps n t :=
  coreRun_next Sys2Proof.core n s t h

theorem runSteps_refused {n : Nat} {s : State} {r : Refusal} (h : step s = .refused r) :
    runSteps (n + 1) s = .refused r :=
  coreRun_refused Sys2Proof.core n s r h

/-- The first step of a run that answers a state. -/
theorem runSteps_cases {n : Nat} {s t : State} (h : runSteps (n + 1) s = .next t) :
    ∃ u, step s = .next u ∧ runSteps n u = .next t := by
  cases hs : step s with
  | next u => exact ⟨u, rfl, by rw [← runSteps_next hs, h]⟩
  | fault f => cases f
  | refused r =>
    rw [runSteps_refused hs] at h
    cases h

end Sys2Proof.Machine
end

