-- ==== Sys2Proof/Tests/Slice0.lean ====
section
/-! SUPPORT. The model's own tests. The expected values are those of `spec/95_test_vectors.md` (its L1 and L2
vectors and programs P1 to P5, named in each comment), or read off the rule named; and for every statement
with hypotheses a witness that meets them. -/

namespace Sys2Proof.Tests

open Sys2Proof.Machine

/-! ### Helpers -/

/-- The small parameters of program P5: `FRAME_W = 4`, `FRAME_H = 3`, `ROWS_PER_FRAME = 3`. -/
def smallCfg : Config := { frameW := 4, frameH := 3, rowsPerFrame := 3 }

/-- Parameters with a counter width of 16 bits and a channel width of 6. -/
def narrowCfg : Config :=
  { markerFrameStart := 0xDEAD, markerPixelRow := 0xBEEF, markerFrameEnd := 0xFEED, hdrLen := 8, offRow := 2,
    offCol := 4, offSize := 6, counterWidth := 16, channelWidth := 6 }

/-- Right after reset, under given parameters and with given offers. -/
def offered (c : Config) (os : List Offer) : State := { State.reset with cfg := c, inputs := os }

/-- The state an outcome answers, if it answers one. -/
def finalState : Host.Outcome State Fault Refusal → Option State
  | .next s => some s
  | .fault _ => none
  | .refused _ => none

/-- One field of the state that one step leads to. -/
def after {α : Type} (s : State) (f : State → α) : Option α := (finalState (step s)).map f

/-- `FS`, `FE` (`30_encoding.md` R72). -/
def fs : Datagram := [0xEF, 0xBE, 0xAD, 0xDE]
def fe : Datagram := [0xAD, 0xDE, 0xAD, 0xDE]

/-- Vector D1, `ROW 5 : 0xF800 0x07E0`, as its 20 bytes. -/
def d1 : Datagram :=
  [0xEF, 0xBE, 0xEF, 0xBE, 0x06, 0, 0, 0, 0x01, 0, 0, 0, 0x01, 0, 0, 0, 0xF8, 0x00, 0x07, 0xE0]

/-- Program P5, step 8, `ROW 2 : 0x07E0 0x07E0`. -/
def p5row2 : Datagram :=
  [0xEF, 0xBE, 0xEF, 0xBE, 0x03, 0, 0, 0, 0x01, 0, 0, 0, 0x01, 0, 0, 0, 0x07, 0xE0, 0x07, 0xE0]

/-- Vector D4, `PR 480, 0, 1 : 0x1234 0x1234`. -/
def d4 : Datagram :=
  [0xEF, 0xBE, 0xEF, 0xBE, 0xE1, 0x01, 0, 0, 0x01, 0, 0, 0, 0x01, 0, 0, 0, 0x12, 0x34, 0x12, 0x34]

/-- Vectors D12 and X4, `PRX 1, 1, 2 : 0xF800`: 18 bytes, truncated. -/
def d12 : Datagram := [0xEF, 0xBE, 0xEF, 0xBE, 0x01, 0, 0, 0, 0x01, 0, 0, 0, 0x02, 0, 0, 0, 0xF8, 0x00]

/-- A stretch of R114 with three complete rows. -/
def mixedStretch : List Offer :=
  [.datagram p5row2, .datagram d12, .acquire, .datagram p5row2, .datagram [0xDE, 0xAD, 0xBE, 0xEF],
    .datagram p5row2]

/-! ### Well-formedness refuses an ill-formed term, each check -/

theorem test_wf_frameStart_tooLong : Instr.wf { maxDgramLen := 4 } (.frameStart [0]) = false := by decide
theorem test_wf_frameEnd_tooLong : Instr.wf { maxDgramLen := 4 } (.frameEnd [0]) = false := by decide
theorem test_wf_frameEnd_disabled : Instr.wf { frameEndEn := false } (.frameEnd []) = false := by decide
theorem test_wf_short_hasHeader :
    Instr.wf {} (.pixelRow (.short [0, 0, 0, 0, 0, 0, 0, 0, 0, 0, 0, 0])) = false := by decide
theorem test_wf_short_tooLong : Instr.wf { maxDgramLen := 4 } (.pixelRow (.short [0])) = false := by decide
theorem test_wf_full_tooLong : Instr.wf { maxDgramLen := 16 } (.pixelRow (.full 0 0 0 [0])) = false := by decide
theorem test_wf_full_wideRow : Instr.wf {} (.pixelRow (.full 0x100000000 0 0 [])) = false := by decide
theorem test_wf_full_wideColumn : Instr.wf {} (.pixelRow (.full 0 0x100000000 0 [])) = false := by decide
theorem test_wf_full_wideSize : Instr.wf {} (.pixelRow (.full 0 0 0x100000000 [])) = false := by decide
theorem test_wf_unknown_wideMarker : Instr.wf {} (.unknown 0x100000000 []) = false := by decide
theorem test_wf_unknown_marker : Instr.wf {} (.unknown 0xBEEFBEEF []) = false := by decide
theorem test_wf_unknown_tooLong : Instr.wf { maxDgramLen := 4 } (.unknown 0 [0]) = false := by decide
theorem test_wf_unknownShort_notShort : Instr.wf {} (.unknownShort [0, 0, 0, 0]) = false := by decide
theorem test_wf_unknownShort_tooLong : Instr.wf { maxDgramLen := 2 } (.unknownShort [0, 0, 0]) = false := by
  decide

/-! ### Decoding, words written out from `30_encoding.md` R58 to R60 and the classifier's vectors -/

theorem test_decode_frameStart_trailing :
    decode {} [0xEF, 0xBE, 0xAD, 0xDE, 0x00, 0x11, 0x22, 0x33, 0x44] =
      .ok (.frameStart [0x00, 0x11, 0x22, 0x33, 0x44]) := by decide
theorem test_decode_frameEnd : decode {} fe = .ok (.frameEnd []) := by decide
theorem test_decode_frameEnd_disabled :
    decode { frameEndEn := false } fe = .ok (.unknown 0xDEADDEAD []) := by decide
theorem test_decode_pixelRow : decode {} d1 = .ok (.pixelRow (.full 6 1 1 [0xF8, 0x00, 0x07, 0xE0])) := by
  decide
/-- Vector D10: 15 bytes, no header. -/
theorem test_decode_pixelRow_short :
    decode {} [0xEF, 0xBE, 0xEF, 0xBE, 0x01, 0, 0, 0, 0x01, 0, 0, 0, 0x01, 0, 0] =
      .ok (.pixelRow (.short [0x01, 0, 0, 0, 0x01, 0, 0, 0, 0x01, 0, 0])) := by decide
/-- Byte-swapped frame-start (R67). -/
theorem test_decode_unknown : decode {} [0xDE, 0xAD, 0xBE, 0xEF] = .ok (.unknown 0xEFBEADDE []) := by decide
theorem test_decode_unknownShort : decode {} [] = .ok (.unknownShort []) := by decide
theorem test_encode_pixelRow : encode {} (.pixelRow (.full 6 1 1 [0xF8, 0x00, 0x07, 0xE0])) = some d1 := by
  decide
theorem test_decode_tooLong : decode { maxDgramLen := 3 } fs = .error .longerThanMax := by decide
theorem test_fetch_events :
    fetch (offered {} [.stop]) = .operation .stop ∧ fetch (offered {} [.close]) = .operation .close ∧
    fetch (offered {} [.acquire]) = .operation .acquire ∧ fetch (offered {} [.reset]) = .operation .reset := by
  decide
theorem test_withFetchWord :
    fetch (State.reset.withFetchWord 32 0xBEEFBEEF) = .operation (.pixelRow (.full 0 0 0 [])) := by decide

/-- R72's expansions: vector D1's line, a pseudo-line of D4, and a whole row of the small frame (P5, step 2). -/
theorem test_expandLine :
    expandLine {} (.row 5 [0xF800, 0x07E0]) = .datagram d1 ∧
    expandLine {} (.pr 480 0 1 [0x1234, 0x1234]) = .datagram d4 ∧
    expandLine smallCfg (.fill 0 0xF800) = .datagram [0xEF, 0xBE, 0xEF, 0xBE, 0x01, 0, 0, 0, 0x01, 0, 0, 0,
      0x02, 0, 0, 0, 0xF8, 0, 0xF8, 0, 0xF8, 0, 0xF8, 0] := by decide

/-! ### Meanings, at most two each -/

/-- Vectors X2 and `0x6000`, where bit replication would give 99. -/
theorem test_convert :
    (convertSample {} 0xF800, convertSample {} 0x07E0, convertSample {} 0x001F, convertSample {} 0x6000) =
      (0xFF0000, 0x00FF00, 0x0000FF, 0x620000) := by decide
/-- The byte-order vector: wire bytes `12 34` are the sample `0x1234` and the cell `0x1044A4`. -/
theorem test_convert_bigEndian : (samplesOf [0x12, 0x34]).map (convertSample {}) = [0x1044A4] := by decide
/-- The parameters at other widths, by hand: two-byte header words, and the sample `0x1234` (fields 2, 17, 20)
in channels of six bits, `2·63/31 = 4`, `17·63/63 = 17`, `20·63/31 = 40`. -/
theorem test_otherWidths :
    decode narrowCfg [0xEF, 0xBE, 0x02, 0x01, 0x01, 0, 0x01, 0, 0x12, 0x34, 0, 0] =
      .ok (.pixelRow (.full 0x0102 1 1 [0x12, 0x34, 0, 0])) ∧
    rowIndex narrowCfg 0 = 0xFFFF ∧ convertSample narrowCfg 0x1234 = (4 * 64 + 17) * 64 + 40 := by decide
/-- Vector D1. -/
theorem test_pixelRow :
    after (offered {} [.datagram d1])
      (fun s => (cellAt s.cfg s.working 0 5, cellAt s.cfg s.working 1 5, s.rowsWritten, s.results)) =
      some (some 0xFF0000, some 0x00FF00, 1, [0x0000000000000002]) := by decide
/-- Vector D4: a row out of range still counts, `oor = 2`. -/
theorem test_pixelRow_outOfRange :
    after (offered {} [.datagram d4]) (fun s => (s.working, s.rowsWritten, s.results)) =
      some ([], 1, [0x000000020000001A]) := by decide
/-- Vector D9: `sampleCount = 0xFFFFFFFE`; a 32-bit wrapped length check would pass it. -/
theorem test_pixelRow_exactLengthCheck :
    after (offered {} [.datagram [0xEF, 0xBE, 0xEF, 0xBE, 0x05, 0, 0, 0, 0x01, 0, 0, 0, 0xFF, 0xFF, 0xFF, 0x7F]])
      (fun s => (s.rowsWritten, s.results)) = some (0, [0x0000000000000012]) := by decide
/-- Vector A3. -/
theorem test_frameStart :
    after (offered {} [.datagram fs]) (fun s => (s.pubValid, s.published, s.results)) =
      some (true, some [], [0x0000000000000040]) := by decide
/-- Vectors A6 and A7. -/
theorem test_frameEnd :
    after { offered {} [.datagram fe] with rowsWritten := 100 } (fun s => (s.rowsWritten, s.pubValid, s.results)) =
      some (0, true, [0x0000000000000046]) := by decide
theorem test_frameEnd_disabled :
    after { offered { frameEndEn := false } [.datagram fe] with rowsWritten := 100 }
      (fun s => (s.rowsWritten, s.pubValid, s.results)) = some (100, false, [0x000000000000000C]) := by decide
/-- Vector K8, and the byte-swapped marker of P3. -/
theorem test_unknown :
    after (offered {} [.datagram [0xDE, 0xAD, 0xBE, 0xEF]]) (·.results) = some [0x000000000000000C] := by decide
theorem test_unknownShort : after (offered {} [.datagram []]) (·.results) = some [0x000000000000000C] := by
  decide
/-- Vectors K1 and K3: a repeat gives no record. -/
theorem test_stop :
    after (offered {} [.stop]) (fun s => (s.runState, s.results)) = some (.stopped, [0x0000000000000029]) := by
  decide
theorem test_stop_again :
    after { offered {} [.stop] with runState := .stopped } (fun s => (s.runState, s.results, s.eventIndex)) =
      some (.stopped, [], 1) := by decide
/-- Vector K2. -/
theorem test_close : after (offered {} [.close]) (fun s => (s.runState, s.results)) =
    some (.stopped, [0x0000000000000021]) := by decide
/-- Vector K4: the datagram is refused by the stopped block and stays with the host. -/
theorem test_stopped_datagram :
    after { offered {} [.datagram fs] with runState := .stopped } (fun s => (s.pubValid, s.results, s.held)) =
      some (false, [], [fs]) := by decide
/-- Vectors A12 and K9. -/
theorem test_acquire :
    after (offered {} [.acquire]) (·.acquired) = some [none] ∧
    after { offered {} [.acquire] with runState := .stopped, published := some [], pubValid := true }
      (·.acquired) = some [some []] := by decide
/-- Program P4, step 7: a reset while `STOPPED`. -/
theorem test_reset :
    after { offered {} [.reset] with
        runState := .stopped, rowsWritten := 1, working := [(6400, 0xFFFFFF)], published := some [], pubValid := true }
      (fun s => decide (s.runState = .running ∧ s.rowsWritten = 0 ∧ s.working = [] ∧ s.pubValid = false ∧
        s.published = none)) = some true := by decide
/-- R101's example, with `ROWS_PER_FRAME = 480`. -/
theorem test_rowDone :
    (finalState (exec .rowDone { State.reset with rowsWritten := 478 })).map (fun s => (s.rowsWritten, s.pubValid))
      = some (479, false) ∧
    (finalState (exec .rowDone { State.reset with rowsWritten := 479 })).map (fun s => (s.rowsWritten, s.pubValid))
      = some (0, true) := by decide
/-- Vector X5's copy by value: the store published is the store of that instant. -/
theorem test_publish :
    (finalState (exec .publish { State.reset with working := [(7, 0xFF0000)], rowsWritten := 3 })).map
      (fun s => (s.published, s.working, s.rowsWritten)) =
      some (some [(7, 0xFF0000)], [(7, 0xFF0000)], 0) := by decide
/-- A write of black removes the entry. -/
theorem test_write_black : Memory.write 5 0x000000 [(3, 1), (5, 2), (9, 3)] = [(3, 1), (9, 3)] := by decide
/-- The status view, stopped with a frame published (R27). -/
theorem test_statusView :
    statusView { State.reset with runState := .stopped, pubValid := true } = 3 := by decide

/-! ### Witnesses: for every statement with hypotheses, what meets them -/

theorem wf_default : Config.default.Wf := by constructor <;> decide

theorem wf_small : smallCfg.Wf := by constructor <;> decide

theorem wf_narrow : narrowCfg.Wf := by constructor <;> decide

theorem witness_FrameStartPublishesAtOnce : State.reset.runState = .running := rfl

theorem witness_FrameEndFollowsItsEnable :
    (State.reset.runState = .running ∧ State.reset.cfg.frameEndEn = true) ∧
    ((offered { frameEndEn := false } []).runState = .running ∧
      (offered { frameEndEn := false } []).cfg.frameEndEn = false) := by decide

/-- At the boundary 479, and one below it. -/
theorem witness_RowDoneCountsOrPublishes :
    (({ State.reset with rowsWritten := 479 } : State).rowsWritten + 1) % 2 ^ Config.default.counterWidth =
      Config.default.rowsPerFrame ∧
    (({ State.reset with rowsWritten := 478 } : State).rowsWritten + 1) % 2 ^ Config.default.counterWidth ≠
      Config.default.rowsPerFrame ∧
    Config.default.Wf ∧ 479 < Config.default.rowsPerFrame := ⟨by decide, by decide, wf_default, by decide⟩

/-- The width 8 of the second clause, and another. -/
theorem witness_ConvertRescalesEachField :
    8 = State.reset.cfg.channelWidth ∧ 255 = 2 ^ 8 - 1 ∧ 6 = (offered narrowCfg []).cfg.channelWidth := by decide

theorem witness_ConvertIsPureWithExactExtremes :
    Config.default.Wf ∧ Config.default.channelWidth = 8 ∧ State.reset.cfg = Config.default :=
  ⟨wf_default, rfl, rfl⟩

theorem witness_PublishCopiesWorking :
    ∃ t, exec (.frameStart []) State.reset = .next t ∧ t.frameReady ≠ State.reset.frameReady :=
  ⟨_, rfl, by decide⟩

theorem witness_AcquireReturnsThePublishedFrame :
    State.reset.pubValid = false ∧ ∃ t, exec .publish State.reset = .next t ∧ t.pubValid = true :=
  ⟨rfl, _, rfl, rfl⟩

theorem witness_PublishedIsKeptOrReplacedWhole :
    (∃ t, exec .stop State.reset = .next t) ∧ (∃ t, exec .reset State.reset = .next t) ∧
    (∃ t, exec (.frameStart []) State.reset = .next t) := ⟨⟨_, rfl⟩, ⟨_, rfl⟩, ⟨_, rfl⟩⟩

theorem witness_NotificationEqualsNextAcquire :
    ∃ t, exec .publish State.reset = .next t ∧ t.frameReady ≠ State.reset.frameReady := ⟨_, rfl, by decide⟩

/-- Fields at the ends of their ranges. -/
theorem witness_ConvertIsInjectiveAndMonotone :
    Config.default.Wf ∧ convertSample {} 0xF800 = convertSample {} 0xF800 ∧ red5 0x0000 ≤ red5 0xF800 ∧
    green6 0x0000 ≤ green6 0x07E0 ∧ blue5 0x0000 ≤ blue5 0x001F :=
  ⟨wf_default, rfl, by decide, by decide, by decide⟩

/-- The two ends of the raw word's range. -/
theorem witness_RowIndexIsRawLessOne :
    0 < 2 ^ Config.default.counterWidth ∧ 0xFFFFFFFF < 2 ^ Config.default.counterWidth ∧
    Config.default.counterWidth = 32 ∧ Config.default.Wf := ⟨by decide, by decide, rfl, wf_default⟩

/-- Vector D1, its last sample. -/
theorem witness_SamplesAreBigEndianPairs :
    Config.default.Wf ∧ decode Config.default d1 = .ok (.pixelRow (.full 6 1 1 [0xF8, 0x00, 0x07, 0xE0])) ∧
    payloadTruncated Config.default 1 [0xF8, 0x00, 0x07, 0xE0] = false ∧
    1 < sampleCount Config.default 1 :=
  ⟨wf_default, by decide, by decide, by decide⟩

/-- The first row and column outside, and the last inside. -/
theorem witness_WriteWorkingIsBoundsChecked :
    Memory.wf [] = true ∧ Config.default.frameH ≤ 480 ∧ Config.default.frameW ≤ 640 ∧
    479 < Config.default.frameH ∧ 639 < Config.default.frameW := by decide

/-- 15 bytes, and X4's 18, of the 24 that its declared samples need. -/
theorem witness_TruncatedRowChangesNothing :
    State.reset.runState = .running ∧
    [(0xF8 : Byte), 0x00].length < 2 * (2 * State.reset.cfg.sizeMult % 2 ^ State.reset.cfg.counterWidth) ∧
    (offered {} [.datagram d12]).cfg.Wf ∧ (offered {} [.datagram d12]).inputs = .datagram d12 :: [] ∧
    d12.length ≤ Config.default.maxDgramLen ∧ headerWord {} d12 0 = some Config.default.markerPixelRow ∧
    headerWord {} d12 Config.default.offSize = some 2 ∧
    d12.length < Config.default.hdrLen + 2 * (2 * Config.default.sizeMult % 2 ^ Config.default.counterWidth) ∧
    (d12.take 15).length < Config.default.hdrLen ∧ headerWord {} (d12.take 15) 0 = some Config.default.markerPixelRow :=
  ⟨rfl, by decide, wf_default, rfl, by decide, by decide, by decide, by decide, by decide, by decide⟩

/-- A row at the last count and one before it. -/
theorem witness_CompleteRowWritesCountsAndReports :
    State.reset.runState = .running ∧ Memory.wf State.reset.working = true ∧
    2 * (1 * State.reset.cfg.sizeMult % 2 ^ State.reset.cfg.counterWidth) ≤ [(0xF8 : Byte), 0x00, 0x07, 0xE0].length ∧
    (State.reset.rowsWritten + 1) % 2 ^ State.reset.cfg.counterWidth ≠ State.reset.cfg.rowsPerFrame ∧
    (({ State.reset with rowsWritten := 479 } : State).rowsWritten + 1) % 2 ^ State.reset.cfg.counterWidth =
      State.reset.cfg.rowsPerFrame := by decide

theorem witness_TrailingBytesAreIgnored :
    payloadTruncated State.reset.cfg 1 [0xF8, 0x00, 0x07, 0xE0] = false := by decide

theorem witness_DifferentRowsCommute :
    State.reset.runState = .running ∧ Memory.wf State.reset.working = true ∧ rowIndex State.reset.cfg 1 ≠ rowIndex State.reset.cfg 2 ∧
    payloadTruncated State.reset.cfg 1 [0xF8, 0x00, 0x07, 0xE0] = false ∧
    payloadTruncated State.reset.cfg 0 [] = false := by decide

theorem witness_OnlyRowsAndResetWriteWorking :
    ∃ t, exec (.pixelRow (.full 1 1 1 [0xF8, 0x00, 0x07, 0xE0])) State.reset = .next t ∧
      t.working ≠ State.reset.working := ⟨_, rfl, by decide⟩

theorem witness_UnwrittenCellsKeepTheirValue :
    Memory.wf State.reset.working = true ∧
    ∃ t, exec (.frameStart []) State.reset = .next t ∧ (.frameStart [] : Instr) ≠ .reset ∧
      ¬ writesCell State.reset (.frameStart []) 0 ∧ t.frameReady ≠ State.reset.frameReady := by
  refine ⟨rfl, _, rfl, by decide, ?_, by decide⟩
  rintro ⟨_, _, _, _, _, h, _⟩
  cases h

theorem witness_UnknownDatagramsAreDropped :
    (offered {} [.datagram [0xDE, 0xAD, 0xBE, 0xEF]]).runState = .running ∧
    classify (offered {} []).cfg [0xDE, 0xAD, 0xBE, 0xEF] = .unknown ∧
    classify (offered {} []).cfg [0xEF, 0xBE, 0xAD] = .unknown := by decide

theorem witness_StopEndsTheLoop : State.reset.runState = .running := rfl

theorem witness_CloseIsANormalTermination : State.reset.runState = .running := rfl

theorem witness_RepeatedTerminationDoesNothing :
    ∃ t, exec .stop State.reset = .next t ∧ t.runState = .stopped := ⟨_, rfl, rfl⟩

theorem witness_NoDatagramChangesRunState :
    (∃ t, exec (.frameStart []) State.reset = .next t ∧ (Instr.frameStart []).kind?.isSome = true) ∧
    (∃ t, exec .stop State.reset = .next t ∧ t.runState ≠ State.reset.runState) :=
  ⟨⟨_, rfl, rfl⟩, ⟨_, rfl, by decide⟩⟩

theorem witness_StoppedBlockTakesNoDatagram :
    ({ offered {} [.datagram fs] with runState := .stopped } : State).runState = .stopped ∧
    (Instr.frameStart []).kind?.isSome = true := ⟨rfl, rfl⟩

theorem witness_WaitingChangesNothing : State.reset.inputs = [] := rfl

/-- The bound itself is accepted, one more is not. -/
theorem witness_OnlyOverlongDatagramsAreRefused :
    step (offered { maxDgramLen := 3 } [.datagram fs]) = .refused .datagramTooLong ∧
    after (offered { maxDgramLen := 4 } [.datagram fs]) (·.pubValid) = some true := ⟨rfl, by decide⟩

theorem witness_EveryOperationCompletes :
    ∀ D rest, (offered {} [.datagram fs]).inputs = .datagram D :: rest →
      D.length ≤ (offered {} [.datagram fs]).cfg.maxDgramLen := by
  intro D rest h
  cases h
  decide

theorem witness_StepRunsTheNextOperation :
    (offered {} [.datagram fs]).inputs = .datagram fs :: [] ∧ (offered {} [.datagram fs]).runState = .running ∧
    decode (offered {} [.datagram fs]).cfg fs = .ok (.frameStart []) ∧
    (offered {} [.stop]).inputs = .stop :: [] ∧ (offered {} [.close]).inputs = .close :: [] ∧
    (offered {} [.acquire]).inputs = .acquire :: [] ∧ (offered {} [.reset]).inputs = .reset :: [] := by decide

/-- Lengths 3 and 4; each marker, the frame-end marker under both settings, and one outside the map. -/
theorem witness_ClassifierFollowsTheMarkerMap :
    (Config.default.Wf ∧ Config.default.counterWidth = 32 ∧ Config.default.wordBytes = 4 ∧
      ({ frameEndEn := false } : Config).Wf ∧ Config.default.frameEndEn = true) ∧
    headerWord {} fs 0 = some Config.default.markerFrameStart ∧
    headerWord {} d1 0 = some Config.default.markerPixelRow ∧
    headerWord {} fe 0 = some Config.default.markerFrameEnd ∧ headerWord {} [0, 0, 0, 0] 0 = some 0 ∧
    0 ≠ Config.default.markerFrameStart ∧ 0 ≠ Config.default.markerPixelRow ∧
    0 ≠ Config.default.markerFrameEnd ∧ [(0xEF : Byte), 0xBE, 0xAD].length < 4 :=
  ⟨⟨wf_default, rfl, rfl, by constructor <;> decide, rfl⟩, by decide, by decide, by decide, by decide, by decide,
    by decide, by decide, by decide⟩

theorem witness_HeaderWordsAreLittleEndian :
    Config.default.Wf ∧ Config.default.specLayout ∧ 16 ≤ d1.length ∧ d1.length ≤ Config.default.maxDgramLen ∧
    headerWord {} d1 0 = some Config.default.markerPixelRow :=
  ⟨wf_default, ⟨rfl, rfl, rfl, rfl, rfl⟩, by decide, by decide, by decide⟩

theorem witness_DecodingIsTotal : Config.default.Wf ∧ d1.length ≤ Config.default.maxDgramLen :=
  ⟨wf_default, by decide⟩

theorem witness_DecodeOfEncodeIsTheOperation :
    Config.default.Wf ∧ Instr.wf Config.default (.pixelRow (.full 6 1 1 [0xF8, 0x00, 0x07, 0xE0])) = true ∧
    (Instr.pixelRow (.full 6 1 1 [0xF8, 0x00, 0x07, 0xE0])).kind?.isSome = true :=
  ⟨wf_default, by decide, rfl⟩

theorem witness_EncodeOfDecodeIsTheDatagram :
    Config.default.Wf ∧ Config.default.specLayout ∧ decode Config.default fs = .ok (.frameStart []) :=
  ⟨wf_default, ⟨rfl, rfl, rfl, rfl, rfl⟩, by decide⟩

theorem witness_ProgramLinesDecodeToTheirRow :
    Config.default.Wf ∧ Config.default.specLayout ∧
    expandLine Config.default (.prx 6 1 1 [0xF800, 0x07E0]) = .datagram d1 ∧
    d1.length ≤ Config.default.maxDgramLen :=
  ⟨wf_default, ⟨rfl, rfl, rfl, rfl, rfl⟩, by decide, by decide⟩

theorem witness_StatusViewShowsRunAndValid :
    State.reset.asmState = .accumulating ∧ State.reset.rowsWritten < 2 ^ 32 := by decide

theorem witness_EmittedRecordsAreTheListedOnes :
    State.reset.cfg.Wf ∧ State.reset.runState = .running ∧
    (∃ t, exec (.pixelRow (.short [])) State.reset = .next t) ∧
    (∃ t, exec .stop State.reset = .next t) ∧ (∃ t, exec .close State.reset = .next t) ∧
    (∃ t, exec .acquire State.reset = .next t) := ⟨wf_default, rfl, ⟨_, rfl⟩, ⟨_, rfl⟩, ⟨_, rfl⟩, ⟨_, rfl⟩⟩

/-- The last cell, and the first byte past the frame. -/
theorem witness_FrameBytesAreRedGreenBlue :
    639 < Config.default.frameW ∧ 479 < Config.default.frameH ∧
    3 * Config.default.frameW * Config.default.frameH ≤ 921600 := by decide

theorem reset_inv : State.reset.Inv :=
  ⟨wf_default, rfl, by decide, rfl, rfl, fun _ h => (by cases h), fun h => (by cases h)⟩

/-- The invariant does not look at the offers. -/
theorem small_inv (os : List Offer) : (offered smallCfg os).Inv :=
  ⟨wf_small, rfl, (by decide : 0 < 3), rfl, rfl, fun _ h => (by cases h),
    fun h => (by cases h)⟩

theorem witness_StepKeepsTheInvariant :
    (offered smallCfg [.datagram p5row2]).Inv ∧ ∃ t, step (offered smallCfg [.datagram p5row2]) = .next t ∧
      t.working ≠ [] := ⟨small_inv _, _, rfl, by decide⟩

theorem witness_NoStepChangesTheParameters : ∃ t, step (offered smallCfg [.datagram fs]) = .next t := ⟨_, rfl⟩

/-- Three rows of a three-row frame, the boundary at which the third publishes, with a truncated row, an UNKNOWN
datagram and an ACQUIRE among them. -/
theorem witness_RowsPublishOncePerFrame :
    (offered smallCfg (mixedStretch ++ [.stop])).Inv ∧
    (offered smallCfg (mixedStretch ++ [.stop])).runState = .running ∧
    (∀ o ∈ mixedStretch, o.inStretch smallCfg = true) ∧
    3 = mixedStretch.countP (fun o => o.isRow smallCfg) :=
  ⟨small_inv _, rfl, by decide, by decide⟩

theorem witness_AcquiresDoNotDisturbTheBlock :
    ∃ t, runSteps (offered smallCfg [.acquire, .datagram fs]).inputs.length
      (offered smallCfg [.acquire, .datagram fs]) = .next t ∧ t.acquired = [none] :=
  ⟨_, rfl, rfl⟩

theorem witness_OutputsAreNeverReadBack :
    SameBlock State.reset { State.reset with results := [2], frameReady := [[]] } ∧
    State.reset.cfg = ({ State.reset with results := [2], frameReady := [[]] } : State).cfg ∧
    ∃ t t', exec (.frameStart []) State.reset = .next t ∧
      exec (.frameStart []) { State.reset with results := [2], frameReady := [[]] } = .next t' :=
  ⟨⟨rfl, rfl, rfl, rfl, rfl, rfl⟩, rfl, _, _, rfl, rfl⟩

end Sys2Proof.Tests
end

/-! ## The reset state

What an empty frame store and an empty `PUBLISHED` show at the interfaces, and from that the reset values of
`10_state.md` R15. -/

namespace Sys2Proof.Machine

/-- The bounds test of `20_memory.md` R38, as a proposition. -/
theorem inBounds_iff {c : Config} {col row : Nat} :
    inBounds c col row = true ↔ col < c.frameW ∧ row < c.frameH := by
  simp [inBounds, and_comm]

/-- A store that lists nothing shows black in every cell of the frame, and no cell outside it. -/
theorem cellAt_nil (c : Config) (col row : Nat) :
    cellAt c [] col row = if col < c.frameW ∧ row < c.frameH then some Memory.unlisted else none := by
  simp only [cellAt, inBounds_iff, Memory.read_nil]

/-- ACQUIRE answers `NULL` while `PUB_VALID = 0` (`43_frame_assembler.md` R112). -/
theorem acquireAnswer_of_not_pubValid {s : State} (h : s.pubValid = false) : acquireAnswer s = none := by
  simp [acquireAnswer, h]

/-- `STATUS` reads 0 while the block is `RUNNING` and `ACCUMULATING` with nothing published (`10_state.md` R27). -/
theorem statusView_of_running_unpublished {s : State} (hrun : s.runState = .running)
    (hasm : s.asmState = .accumulating) (hvalid : s.pubValid = false) : statusView s = 0 := by
  simp [statusView, hrun, hasm, hvalid, runBit, asmBit]

/-- `ROWS` reads 0 when no row has been counted (`10_state.md` R27). -/
theorem rowsView_of_rowsWritten_zero {s : State} (h : s.rowsWritten = 0) : rowsView s = 0 := by
  simp [rowsView, h]

/-- Settles O1: the elements and the parameters are the literals of `State.reset`; the cells, the ACQUIRE answer
and the two views are those of any block that has published nothing and whose `WORKING` lists no cell. -/
theorem resetStateIsBlankAndRunning : Obligations.ResetStateIsBlankAndRunning := by
  have hcells : ∀ col row, cellAt State.reset.cfg State.reset.working col row =
      if col < 640 ∧ row < 480 then some 0x000000 else none :=
    cellAt_nil Config.default
  have hacquire : acquireAnswer State.reset = none := acquireAnswer_of_not_pubValid rfl
  have hstatus : statusView State.reset = 0 := statusView_of_running_unpublished rfl rfl rfl
  have hrows : rowsView State.reset = 0 := rowsView_of_rowsWritten_zero rfl
  exact ⟨rfl, rfl, rfl, rfl, rfl, rfl, hcells, hacquire, hstatus, hrows⟩

end Sys2Proof.Machine

/-! ## The state between steps

What one step does to the parameters, the offers and the invariant (`10_state.md` R17 to R30): the cases of
`fetch`, the invariant carried through each named update of the state, and a run compared with the run that
lacks the consumer's requests. -/

namespace Sys2Proof.Machine

/-! ### Which operation comes next -/

/-- A datagram is never a reason to wait. -/
theorem admitDatagram_ne_waiting (s : State) (D : Datagram) : admitDatagram s D ≠ .waiting := by
  unfold admitDatagram
  split
  · nofun
  · split <;> nofun

/-- Only the running block rejects a datagram, and only one that the decoder rejects. -/
theorem admitDatagram_rejected {s : State} {D : Datagram} {why : DecodeError}
    (h : admitDatagram s D = .rejected why) : s.runState = .running ∧ decode s.cfg D = .error why := by
  unfold admitDatagram at h
  split at h
  case h_1 => cases h
  case h_2 hrun =>
    split at h
    case h_1 => cases h
    case h_2 hdec => cases h; exact ⟨hrun, hdec⟩

theorem inputs_of_fetch_waiting {s : State} (h : fetch s = .waiting) : s.inputs = [] := by
  unfold fetch at h
  split at h
  case h_1 hin => exact hin
  case h_2 D _ _ => exact absurd h (admitDatagram_ne_waiting s D)
  all_goals cases h

theorem inputs_of_fetch_rejected {s : State} {why : DecodeError} (h : fetch s = .rejected why) :
    ∃ D rest, s.inputs = .datagram D :: rest ∧ s.runState = .running ∧ decode s.cfg D = .error why := by
  unfold fetch at h
  split at h
  case h_2 D rest hin => exact ⟨D, rest, hin, admitDatagram_rejected h⟩
  all_goals cases h

/-- No datagram carries an event or a sub-operation (`30_encoding.md` R71). -/
theorem decode_kind?_isSome {c : Config} {D : Datagram} {i : Instr} (h : decode c D = .ok i) :
    i.kind?.isSome = true := by
  obtain ⟨-, ⟨-, rfl⟩ | ⟨m, -, rfl⟩⟩ := decode_cases h
  · rfl
  · unfold decodeMarked; split <;> rfl

/-- A datagram is never taken as an ACQUIRE. -/
theorem admitDatagram_ne_acquire (s : State) (D : Datagram) : admitDatagram s D ≠ .operation .acquire := by
  unfold admitDatagram
  split
  · nofun
  · split
    case h_1 i hdec =>
      rintro ⟨⟩
      cases decode_kind?_isSome hdec
    case h_2 => nofun

/-- ACQUIRE is taken only where the consumer offers it. -/
theorem fetch_ne_acquire {s : State} {o : Offer} {rest : List Offer} (hin : s.inputs = o :: rest)
    (ho : o ≠ .acquire) : fetch s ≠ .operation .acquire := by
  rw [fetch, hin]
  cases o with
  | datagram D => exact admitDatagram_ne_acquire s D
  | acquire => exact absurd rfl ho
  | stop => nofun
  | close => nofun
  | reset => nofun

/-- The one reason for which the decoder rejects (`93_implementation_defined.md` U9). -/
theorem maxDgramLen_lt_of_decode_error {c : Config} {D : Datagram} {e : DecodeError} (h : decode c D = .error e) :
    c.maxDgramLen < D.length := by
  by_contra hle
  cases hm : headerWord c D 0 with
  | none => rw [decode_short (by omega) hm] at h; cases h
  | some m => rw [decode_marked (by omega) hm] at h; cases h

/-! ### What a step does to the parameters and the offers -/

/-- `exec` answers a state for every operation. -/
theorem exec_ne_refused (i : Instr) (s : State) (r : Refusal) : exec i s ≠ .refused r := by
  cases hr : s.runState with
  | running => simp [exec_running i hr]
  | stopped => simp [exec_stopped i hr]

theorem exec_cfg {i : Instr} {s t : State} (h : exec i s = .next t) : t.cfg = s.cfg := by
  obtain ⟨-, -, rfl⟩ | ⟨-, rfl⟩ := exec_cases h
  · rfl
  · exact effectOf_cfg i s

theorem exec_inputs {i : Instr} {s t : State} (h : exec i s = .next t) : t.inputs = s.inputs := by
  obtain ⟨-, -, rfl⟩ | ⟨-, rfl⟩ := exec_cases h
  · rfl
  · exact (effectOf_frame i s).2.1

/-- Every step disposes of exactly the next offer, consumed or turned away. -/
theorem step_inputs {s t : State} (h : step s = .next t) : t.inputs = s.inputs.tail := by
  unfold step at h
  split at h
  case h_1 hf => cases h; rw [inputs_of_fetch_waiting hf, List.tail_nil]
  case h_2 => cases h; rfl
  case h_3 => cases h
  case h_4 => exact exec_inputs h

theorem takeOffer_of_cons {s : State} {o : Offer} {rest : List Offer} (h : s.inputs = o :: rest) :
    takeOffer s = { s with inputs := rest, eventIndex := s.eventIndex + 1 } := by
  rw [takeOffer, h, List.tail_cons]

/-- Settles O47: a step waits, turns a datagram away or runs one operation, and each keeps the parameters. -/
theorem noStepChangesTheParameters : Obligations.NoStepChangesTheParameters := by
  intro s t h
  obtain rfl | ⟨D, -, rfl⟩ | ⟨i, hi⟩ := step_cases h
  · rfl
  · rfl
  · rw [exec_cfg hi, takeOffer_cfg]

/-- Settles O31: no operation refuses, so a refusal is a rejected datagram, and only its length rejects one. -/
theorem onlyOverlongDatagramsAreRefused : Obligations.OnlyOverlongDatagramsAreRefused := by
  intro s r
  constructor
  · intro h
    unfold step at h
    split at h
    case h_1 => cases h
    case h_2 => cases h
    case h_3 why hf =>
      obtain ⟨D, rest, hin, hrun, hdec⟩ := inputs_of_fetch_rejected hf
      cases why
      cases h
      exact ⟨rfl, hrun, D, rest, hin, maxDgramLen_lt_of_decode_error hdec⟩
    case h_4 i _ => exact absurd h (exec_ne_refused i _ r)
  · rintro ⟨rfl, hrun, D, rest, hin, hlong⟩
    exact step_rejected hin hrun hlong

/-- Settles O33: the law of `step` for each kind of offer, with the offer taken written out. -/
theorem stepRunsTheNextOperation : Obligations.StepRunsTheNextOperation := by
  intro s rest
  refine ⟨fun D i hin hrun hdec => ?_, fun hin => ?_, fun hin => ?_, fun hin => ?_, fun hin => ?_⟩ <;>
    rw [← takeOffer_of_cons hin]
  · exact step_datagram hin hrun hdec
  · exact step_stop hin
  · exact step_close hin
  · exact step_acquire hin
  · exact step_reset hin

/-! ### The views -/

theorem rowsView_toNat {s : State} (h : s.rowsWritten < 2 ^ 32) : (rowsView s).toNat = s.rowsWritten :=
  (BitVec.toNat_ofNat ..).trans (Nat.mod_eq_of_lt h)

/-- Settles O41: under `ACCUMULATING` the word is one of four, by `RUN_STATE` and `PUB_VALID`. -/
theorem statusViewShowsRunAndValid : Obligations.StatusViewShowsRunAndValid := by
  intro s hasm hrows
  refine ⟨?_, rowsView_toNat hrows⟩
  rw [statusView, hasm]
  cases s.runState <;> cases s.pubValid <;> rfl

/-! ### The invariant, update by update -/

/-- The sample loop keeps a frame's store a frame's store. -/
theorem writeSamples_isFrame {c : Config} {row : Nat} (xs : List Sample) {m : Memory}
    (hm : Memory.isFrame c m = true) : Memory.isFrame c (writeSamples c row 0 xs (m, 0)).1 = true := by
  rw [Memory.isFrame, Bool.and_eq_true] at *
  exact ⟨writeSamples_wf xs 0 m 0 hm.1, writeSamples_inFrame xs 0 m 0 hm.2⟩

namespace State.Inv

theorem setRunState {s : State} (h : s.Inv) (r : RunState) : (setRunState r s).Inv := { h with }

theorem emitResult {s : State} (h : s.Inv) (r : Record) : (emitResult r s).Inv := { h with }

theorem raiseCondition {s : State} (h : s.Inv) (k : PacketKind) (e : Condition) : (raiseCondition k e s).Inv :=
  h.emitResult _

theorem answerAcquire {s : State} (h : s.Inv) (f : Option Memory) : (answerAcquire f s).Inv := { h with }

theorem returnSub {s : State} (h : s.Inv) (r : SubReturn) : (returnSub r s).Inv := { h with }

theorem takeOffer {s : State} (h : s.Inv) : (takeOffer s).Inv := { h with }

theorem turnAway {s : State} (h : s.Inv) (D : Datagram) : (turnAway D s).Inv := { h with }

theorem setWorking {s : State} (h : s.Inv) {m : Memory} (hm : Memory.isFrame s.cfg m = true) :
    (setWorking m s).Inv := { h with workingFrame := hm }

/-- PUBLISH leaves the counter at 0 and `PUBLISHED` the frame it notifies. It asks nothing of the counter before
it, which ROW_DONE has just raised to `ROWS_PER_FRAME`. -/
theorem publishFrame_of_frame {s : State} (hcfg : s.cfg.Wf) (hm : Memory.isFrame s.cfg s.working = true) :
    (publishFrame s).Inv where
  cfgWf := hcfg
  accumulating := rfl
  rowsBelow := hcfg.rowsPos
  workingFrame := hm
  validIff := rfl
  publishedFrame := by rintro _ ⟨⟩; exact hm
  latest := by simp

theorem publishFrame {s : State} (h : s.Inv) : (publishFrame s).Inv :=
  publishFrame_of_frame h.cfgWf h.workingFrame

/-- RESET needs legal parameters and nothing else. -/
theorem resetBlock_of_wf {s : State} (hcfg : s.cfg.Wf) : (resetBlock s).Inv where
  cfgWf := hcfg
  accumulating := rfl
  rowsBelow := hcfg.rowsPos
  workingFrame := rfl
  validIff := rfl
  publishedFrame := nofun
  latest := nofun

/-- The counter does not wrap: one more row is at most `ROWS_PER_FRAME`, which its width holds. -/
theorem wrapWord_succ {s : State} (h : s.Inv) : wrapWord s.cfg (s.rowsWritten + 1) = s.rowsWritten + 1 :=
  wrapWord_of_lt (Nat.lt_of_le_of_lt h.rowsBelow h.cfgWf.rowsFit)

/-- A row counted short of `ROWS_PER_FRAME` leaves the counter below it (`10_state.md` R21). -/
theorem countRow {s : State} (h : s.Inv) (hne : wrapWord s.cfg (s.rowsWritten + 1) ≠ s.cfg.rowsPerFrame) :
    (countRow s).Inv :=
  { h with
    rowsBelow := by
      have hlt := h.rowsBelow
      rw [h.wrapWord_succ] at hne
      simp only [countRow_rowsWritten, countRow_cfg, h.wrapWord_succ]
      omega }

theorem completeRow {s : State} (h : s.Inv) : (completeRow s).1.Inv := by
  by_cases hrows : wrapWord s.cfg (s.rowsWritten + 1) = s.cfg.rowsPerFrame
  · rw [completeRow_publishes hrows]
    exact publishFrame_of_frame h.cfgWf h.workingFrame
  · rw [completeRow_counts hrows]
    exact h.countRow hrows

theorem decodeRow {s : State} (h : s.Inv) (row : Nat) (xs : List Sample) : (decodeRow row xs s).Inv :=
  ((h.setWorking (writeSamples_isFrame xs h.workingFrame)).completeRow).emitResult _

theorem pixelRowEffect {s : State} (h : s.Inv) (body : RowBody) : (pixelRowEffect body s).Inv := by
  obtain heq | ⟨_, _, _, _, -, -, heq⟩ := pixelRowEffect_cases body s <;> rw [heq]
  · exact h.raiseCondition _ _
  · exact h.decodeRow _ _

theorem publishOnMarker {s : State} (h : s.Inv) (k : PacketKind) : (publishOnMarker k s).Inv :=
  h.publishFrame.emitResult _

theorem frameEndEffect {s : State} (h : s.Inv) : (frameEndEffect s).Inv := by
  unfold Machine.frameEndEffect
  split
  · exact h.publishOnMarker _
  · exact h.raiseCondition _ _

theorem terminate {s : State} (h : s.Inv) (e : Condition) : (terminate e s).Inv := by
  cases hr : s.runState with
  | running => rw [terminate_running hr]; exact (h.setRunState _).emitResult _
  | stopped => rw [terminate_stopped hr]; exact h

/-- Every operation of the table keeps the invariant. -/
theorem effectOf {s : State} (h : s.Inv) (i : Instr) : (effectOf i s).Inv := by
  cases i with
  | frameStart _ => exact h.publishOnMarker _
  | pixelRow body => exact h.pixelRowEffect body
  | frameEnd _ => exact h.frameEndEffect
  | unknown _ _ => exact h.raiseCondition _ _
  | unknownShort _ => exact h.raiseCondition _ _
  | stop => exact h.terminate _
  | close => exact h.terminate _
  | acquire => exact h.answerAcquire _
  | reset => exact resetBlock_of_wf h.cfgWf
  | convert _ => exact h.returnSub _
  | rowDone => exact h.completeRow.returnSub _
  | publish => exact h.publishFrame

theorem exec {s t : State} {i : Instr} (h : s.Inv) (hi : exec i s = .next t) : t.Inv := by
  obtain ⟨-, -, rfl⟩ | ⟨-, rfl⟩ := exec_cases hi
  · exact h
  · exact h.effectOf i

end State.Inv

theorem config_default_wf : Config.default.Wf := by constructor <;> decide

/-- Settles O45: the state right after reset is what RESET leaves, under the default parameters. -/
theorem invariantHoldsAtReset : Obligations.InvariantHoldsAtReset :=
  State.Inv.resetBlock_of_wf (s := State.reset) config_default_wf

/-- Settles O46: a step waits, turns a datagram away or runs one operation, and each keeps the invariant. -/
theorem stepKeepsTheInvariant : Obligations.StepKeepsTheInvariant := by
  intro s t hinv h
  obtain rfl | ⟨D, -, rfl⟩ | ⟨i, hi⟩ := step_cases h
  · exact hinv
  · exact hinv.turnAway D
  · exact hinv.takeOffer.exec hi

/-! ### The run without the consumer's requests

The run over the offers less every ACQUIRE stays, step by step, the image of the run over all of them: only the
event index and the answers are its own, and no other operation reads those. An ACQUIRE is a step of the full run
alone, and both runs take every other offer. -/

/-- The image of a state: every ACQUIRE left out of the offers, `k` events taken and `a` answered. -/
def withoutConsumer (k : Nat) (a : List (Option Memory)) (s : State) : State :=
  { withoutAcquires s with eventIndex := k, acquired := a }

section
variable {k : Nat} {a : List (Option Memory)} {s t : State}

@[simp] theorem withoutConsumer_cfg : (withoutConsumer k a s).cfg = s.cfg := rfl

theorem withoutConsumer_inputs :
    (withoutConsumer k a s).inputs = s.inputs.filter (fun o => o != .acquire) := rfl

theorem withoutConsumer_inputs_cons {o : Offer} {rest : List Offer} (hin : s.inputs = o :: rest)
    (ho : o ≠ .acquire) :
    (withoutConsumer k a s).inputs = o :: rest.filter (fun o => o != .acquire) := by
  rw [withoutConsumer_inputs, hin, List.filter_cons_of_pos (by simpa using ho)]

/-! #### Every other operation acts alike on a state and its image -/

theorem completeRow_withoutConsumer :
    completeRow (withoutConsumer k a s) = (withoutConsumer k a (completeRow s).1, (completeRow s).2) := by
  by_cases h : wrapWord s.cfg (s.rowsWritten + 1) = s.cfg.rowsPerFrame
  · rw [completeRow_publishes h, completeRow_publishes (s := withoutConsumer k a s) h]
    rfl
  · rw [completeRow_counts h, completeRow_counts (s := withoutConsumer k a s) h]
    rfl

theorem decodeRow_withoutConsumer (row : Nat) (xs : List Sample) :
    decodeRow row xs (withoutConsumer k a s) = withoutConsumer k a (decodeRow row xs s) := by
  have hset : ∀ m, setWorking m (withoutConsumer k a s) = withoutConsumer k a (setWorking m s) := fun _ => rfl
  simp only [decodeRow, hset, completeRow_withoutConsumer]
  rfl

theorem pixelRowEffect_withoutConsumer (body : RowBody) :
    pixelRowEffect body (withoutConsumer k a s) = withoutConsumer k a (pixelRowEffect body s) := by
  cases body with
  | short rest => rfl
  | full rowRaw colRaw sizeRaw payload =>
    simp only [pixelRowEffect, withoutConsumer_cfg, decodeRow_withoutConsumer, apply_ite (withoutConsumer k a)]
    rfl

theorem frameEndEffect_withoutConsumer :
    frameEndEffect (withoutConsumer k a s) = withoutConsumer k a (frameEndEffect s) := by
  rw [frameEndEffect, frameEndEffect, apply_ite (withoutConsumer k a)]
  rfl

theorem terminate_withoutConsumer (e : Condition) :
    terminate e (withoutConsumer k a s) = withoutConsumer k a (terminate e s) := by
  cases hr : s.runState with
  | running => rw [terminate_running hr, terminate_running (s := withoutConsumer k a s) hr]; rfl
  | stopped => rw [terminate_stopped hr, terminate_stopped (s := withoutConsumer k a s) hr]

theorem effectOf_withoutConsumer {i : Instr} (hi : i ≠ .acquire) :
    effectOf i (withoutConsumer k a s) = withoutConsumer k a (effectOf i s) := by
  cases i with
  | acquire => exact absurd rfl hi
  | pixelRow body => exact pixelRowEffect_withoutConsumer body
  | frameEnd _ => exact frameEndEffect_withoutConsumer
  | stop => exact terminate_withoutConsumer _
  | close => exact terminate_withoutConsumer _
  | rowDone => simp only [effectOf, completeRow_withoutConsumer]; rfl
  | frameStart _ => rfl
  | unknown _ _ => rfl
  | unknownShort _ => rfl
  | reset => rfl
  | convert _ => rfl
  | publish => rfl

theorem exec_withoutConsumer {i : Instr} (hi : i ≠ .acquire) (h : exec i s = .next t) :
    exec i (withoutConsumer k a s) = .next (withoutConsumer k a t) := by
  cases hr : s.runState with
  | running =>
    rw [exec_running i hr] at h
    cases h
    rw [exec_running i (s := withoutConsumer k a s) hr, effectOf_withoutConsumer hi]
  | stopped =>
    rw [exec_stopped i hr] at h
    cases h
    rw [exec_stopped i (s := withoutConsumer k a s) hr, effectOf_withoutConsumer hi,
      apply_ite (withoutConsumer k a)]

/-! #### Steps and runs -/

theorem fetch_withoutConsumer {o : Offer} {rest : List Offer} (hin : s.inputs = o :: rest) (ho : o ≠ .acquire) :
    fetch (withoutConsumer k a s) = fetch s := by
  rw [fetch, fetch, withoutConsumer_inputs_cons hin ho, hin]
  cases o <;> rfl

theorem takeOffer_withoutConsumer {o : Offer} {rest : List Offer} (hin : s.inputs = o :: rest)
    (ho : o ≠ .acquire) :
    takeOffer (withoutConsumer k a s) = withoutConsumer (k + 1) a (takeOffer s) := by
  rw [takeOffer_of_cons (withoutConsumer_inputs_cons hin ho), takeOffer_of_cons hin]
  rfl

theorem turnAway_withoutConsumer {o : Offer} {rest : List Offer} (hin : s.inputs = o :: rest)
    (ho : o ≠ .acquire) (D : Datagram) :
    turnAway D (withoutConsumer k a s) = withoutConsumer k a (turnAway D s) := by
  rw [turnAway, withoutConsumer_inputs_cons hin ho, turnAway, hin]
  rfl

/-- An ACQUIRE is a step of the full run that leaves the image where it is. -/
theorem withoutConsumer_of_step_acquire {rest : List Offer} (hin : s.inputs = .acquire :: rest)
    (h : step s = .next t) : withoutConsumer k a t = withoutConsumer k a s := by
  rw [step_acquire hin, takeOffer_of_cons hin] at h
  cases h
  simp [withoutConsumer, withoutAcquires, answerAcquire, hin]

/-- Any other offer is a step of both runs. -/
theorem step_withoutConsumer {o : Offer} {rest : List Offer} (hin : s.inputs = o :: rest) (ho : o ≠ .acquire)
    (h : step s = .next t) : ∃ k', step (withoutConsumer k a s) = .next (withoutConsumer k' a t) := by
  have hne := fetch_ne_acquire hin ho
  rw [step, fetch_withoutConsumer hin ho]
  unfold step at h
  cases hf : fetch s with
  | waiting => rw [inputs_of_fetch_waiting hf] at hin; cases hin
  | turnedAway D =>
    rw [hf] at h
    cases h
    exact ⟨k, congrArg _ (turnAway_withoutConsumer hin ho D)⟩
  | rejected why => rw [hf] at h; cases h
  | operation i =>
    rw [hf] at h hne
    refine ⟨k + 1, ?_⟩
    simp only [takeOffer_withoutConsumer hin ho]
    exact exec_withoutConsumer (fun hi => hne (congrArg _ hi)) h

/-- The run without the requests ends in the image of where the full run ends. -/
theorem runSteps_withoutConsumer (h : runSteps s.inputs.length s = .next t) :
    ∃ k', runSteps (withoutConsumer k a s).inputs.length (withoutConsumer k a s) =
      .next (withoutConsumer k' a t) := by
  induction hin : s.inputs generalizing k s with
  | nil =>
    rw [hin] at h
    cases h
    exact ⟨k, by rw [withoutConsumer_inputs, hin]; rfl⟩
  | cons o rest ih =>
    rw [hin] at h
    obtain ⟨u, hstep, hrun⟩ := runSteps_cases h
    have hu : u.inputs = rest := by rw [step_inputs hstep, hin, List.tail_cons]
    rw [← hu] at hrun
    by_cases ho : o = .acquire
    · subst ho
      rw [← withoutConsumer_of_step_acquire hin hstep]
      exact ih hrun hu
    · obtain ⟨k', hstep'⟩ := step_withoutConsumer (k := k) (a := a) hin ho hstep
      have htail : (withoutConsumer k a s).inputs = o :: (withoutConsumer k' a u).inputs := by
        rw [withoutConsumer_inputs_cons hin ho, withoutConsumer_inputs, hu]
      rw [htail, List.length_cons, runSteps_next hstep']
      exact ih hrun hu

end

/-- Settles O49: the shorter run starts in the image of the full run's state and ends in the image of its last
one, which has the same block, records, notifications and held datagrams. -/
theorem acquiresDoNotDisturbTheBlock : Obligations.AcquiresDoNotDisturbTheBlock := by
  intro s t h
  obtain ⟨k, hrun⟩ := runSteps_withoutConsumer (k := s.eventIndex) (a := s.acquired) h
  exact ⟨withoutConsumer k s.acquired t, hrun, ⟨rfl, rfl, rfl, rfl, rfl, rfl⟩, rfl, rfl, rfl⟩

end Sys2Proof.Machine

/-! ## The memory

The frame stores, the header words and the consumer's byte view (`20_memory.md`): what an operation may do to
`PUBLISHED` and to `WORKING`, said once for `exec`, and how bytes make a word and a cell makes bytes. -/

namespace Sys2Proof

/-! ### Header words, byte by byte -/

theorem leWord_zero {D : List Byte} {off v : Nat} : leWord 0 D off = some v ↔ off ≤ D.length ∧ v = 0 := by
  simp [leWord, leNat, eq_comm]

/-- A word is its lowest byte and the word of the bytes after it (`20_memory.md` R42). -/
theorem leWord_succ {n : Nat} {D : List Byte} {off v : Nat} :
    leWord (n + 1) D off = some v ↔
      ∃ b w, D[off]? = some b ∧ leWord n D (off + 1) = some w ∧ v = b.toNat + 256 * w := by
  by_cases hlen : off < D.length
  · have hcond : off + (n + 1) ≤ D.length ↔ off + 1 + n ≤ D.length := by omega
    simp only [leWord, hcond, List.drop_eq_getElem_cons hlen, List.take_succ_cons, leNat,
      List.getElem?_eq_getElem hlen]
    split <;> simp [eq_comm]
  · have hword : leWord (n + 1) D off = none := leWord_eq_none.2 (by omega)
    have hbyte : D[off]? = none := List.getElem?_eq_none (by omega)
    simp [hword, hbyte]

/-- Byte `i` of a word is the byte `i` places past its offset. -/
theorem leWord_byte {n : Nat} {D : List Byte} {off v : Nat} (h : leWord n D off = some v) {i : Nat} (hi : i < n) :
    ∃ b, D[off + i]? = some b ∧ v / 256 ^ i % 256 = b.toNat := by
  induction n generalizing off v i with
  | zero => omega
  | succ n ih =>
    obtain ⟨b, w, hb, hw, rfl⟩ := leWord_succ.1 h
    have hlt := b.isLt
    cases i with
    | zero => exact ⟨b, hb, by omega⟩
    | succ i =>
      obtain ⟨b', hb', hval⟩ := ih hw (Nat.lt_of_succ_lt_succ hi)
      have hrest : (b.toNat + 256 * w) / 256 = w := by omega
      refine ⟨b', by rw [← hb']; congr 1; omega, ?_⟩
      rw [Nat.pow_succ', ← Nat.div_div_eq_div_mul, hrest, hval]

/-- A word of four bytes is their sum with the weights 1, 256, 65536 and 16777216, and needs all four. -/
theorem leWord_four {D : List Byte} {off v : Nat} :
    leWord 4 D off = some v ↔
      ∃ b0 b1 b2 b3, D[off]? = some b0 ∧ D[off + 1]? = some b1 ∧ D[off + 2]? = some b2 ∧ D[off + 3]? = some b3 ∧
        v = b0.toNat + b1.toNat * 256 + b2.toNat * 65536 + b3.toNat * 16777216 := by
  simp only [leWord_succ, leWord_zero]
  constructor
  · rintro ⟨b0, _, h0, ⟨b1, _, h1, ⟨b2, _, h2, ⟨b3, _, h3, ⟨-, rfl⟩, rfl⟩, rfl⟩, rfl⟩, rfl⟩
    exact ⟨b0, b1, b2, b3, h0, h1, h2, h3, by omega⟩
  · rintro ⟨b0, b1, b2, b3, h0, h1, h2, h3, rfl⟩
    have hlen := (List.getElem?_eq_some_iff.1 h3).1
    exact ⟨b0, _, h0, ⟨b1, _, h1, ⟨b2, _, h2, ⟨b3, _, h3, ⟨by omega, rfl⟩, rfl⟩, rfl⟩, rfl⟩, by omega⟩

theorem headerWord_of_width_32 {c : Config} (h : c.counterWidth = 32) (D : Datagram) (off : Nat) :
    headerWord c D off = leWord 4 D off := by
  rw [headerWord, Config.wordBytes, h]

/-- A datagram with the pixel-row marker and a whole header decodes to its three words and its payload
(`30_encoding.md` R60). -/
theorem decode_pixelRow_full {c : Config} (hc : c.Wf) {D : Datagram} (hmax : D.length ≤ c.maxDgramLen)
    (hmarker : headerWord c D 0 = some c.markerPixelRow) (hhdr : c.hdrLen ≤ D.length) :
    ∃ r k z, headerWord c D c.offRow = some r ∧ headerWord c D c.offCol = some k ∧
      headerWord c D c.offSize = some z ∧ decode c D = .ok (.pixelRow (.full r k z (D.drop c.hdrLen))) := by
  obtain ⟨r, k, z, hr, hk, hz, hbody⟩ := decodeRowBody_full hc hhdr
  refine ⟨r, k, z, hr, hk, hz, ?_⟩
  rw [decode_marked hmax hmarker, decodeMarked, kindOfMarker_row hc, hbody]

namespace Machine

/-- Settles O35: the bytes of a word by recursion over its size, four of them at the width 32, and a whole
header's words at the offsets of the spec's layout. -/
theorem headerWordsAreLittleEndian : Obligations.HeaderWordsAreLittleEndian := by
  refine ⟨fun c D off v h i hi => leWord_byte h hi, fun c D off v h32 => ?_, ?_, rfl⟩
  · rw [headerWord_of_width_32 h32]
    exact leWord_four
  · intro c D hc hlayout hlen hmax hmarker
    obtain ⟨-, hrow, hcol, hsize, hhdr⟩ := hlayout
    have h := decode_pixelRow_full hc hmax hmarker (hhdr ▸ hlen)
    rwa [hrow, hcol, hsize, hhdr] at h

/-! ### The byte view of a frame -/

theorem cellAt_of_lt {c : Config} {col row : Nat} (hcol : col < c.frameW) (hrow : row < c.frameH) (m : Memory) :
    cellAt c m col row = some (Memory.read (cellIndex c col row) m) :=
  if_pos (inBounds_iff.2 ⟨hcol, hrow⟩)

/-- The three bytes of a cell of the frame (`20_memory.md` R41). -/
theorem frameByte_of_cell {c : Config} {p : Nat} (hp : p < c.frameW * c.frameH) (m : Memory) :
    frameByte c m (3 * p) = some (cellRed c (Memory.read p m)) ∧
    frameByte c m (3 * p + 1) = some (cellGreen c (Memory.read p m)) ∧
    frameByte c m (3 * p + 2) = some (cellBlue c (Memory.read p m)) := by
  have hbyte2 : 3 * p + 2 < 3 * c.frameW * c.frameH := by
    rw [Nat.mul_assoc]
    omega
  have hdiv1 : (3 * p + 1) / 3 = p := by omega
  have hdiv2 : (3 * p + 2) / 3 = p := by omega
  have hbyte0 : 3 * p < 3 * c.frameW * c.frameH := by omega
  have hbyte1 : 3 * p + 1 < 3 * c.frameW * c.frameH := by omega
  refine ⟨?_, ?_, ?_⟩
  · simp [frameByte, hbyte0]
  · simp [frameByte, hbyte1, hdiv1]
  · simp [frameByte, hbyte2, hdiv2]

/-- Settles O44: a cell inside the frame has its three bytes below the end of the view, which is the view's own
bounds test. -/
theorem frameBytesAreRedGreenBlue : Obligations.FrameBytesAreRedGreenBlue := by
  rintro c m n rfl
  refine ⟨?_, fun a ha => if_neg (Nat.not_lt.2 ha)⟩
  rintro col row p hcol hrow rfl
  exact ⟨_, cellAt_of_lt hcol hrow m, frameByte_of_cell (cellIndex_lt hcol hrow) m⟩

/-! ### ACQUIRE -/

theorem exec_acquire (s : State) : exec .acquire s = .next (answerAcquire (acquireAnswer s) s) := rfl

/-- An answer given earlier has no part in the next one (`20_memory.md` R49). -/
theorem acquireAnswer_answerAcquire (f : Option Memory) (s : State) :
    acquireAnswer (answerAcquire f s) = acquireAnswer s := rfl

/-- Settles O8: the second ACQUIRE answers from the same `PUBLISHED` and `PUB_VALID` as the first. -/
theorem acquireIsIdempotent : Obligations.AcquireIsIdempotent := by
  intro s
  have hagain := exec_acquire (answerAcquire (acquireAnswer s) s)
  rw [acquireAnswer_answerAcquire] at hagain
  exact ⟨_, _, acquireAnswer s, exec_acquire s, hagain, ⟨rfl, rfl, rfl, rfl, rfl, rfl⟩, by simp⟩

/-! ### What an operation other than RESET does to `PUBLISHED` -/

/-- The published frame, its flag and the notifications are as they were, or `PUBLISHED` is the whole of
`WORKING`, notified, with the counter at 0 (`20_memory.md` R48, `43_frame_assembler.md` R107). -/
def PublishedKeptOrReplaced (s t : State) : Prop :=
  (t.published = s.published ∧ t.pubValid = s.pubValid ∧ t.frameReady = s.frameReady) ∨
  (t.published = some t.working ∧ t.pubValid = true ∧ t.frameReady = s.frameReady ++ [t.working] ∧
    t.rowsWritten = 0 ∧ t.asmState = .accumulating)

namespace PublishedKeptOrReplaced

theorem publishFrame (s : State) : PublishedKeptOrReplaced s (publishFrame s) :=
  Or.inr ⟨rfl, rfl, rfl, rfl, rfl⟩

theorem countRow (s : State) : PublishedKeptOrReplaced s (countRow s) := Or.inl ⟨rfl, rfl, rfl⟩

theorem emitResult {s t : State} (h : PublishedKeptOrReplaced s t) (r : Record) :
    PublishedKeptOrReplaced s (emitResult r t) := h

theorem returnSub {s t : State} (h : PublishedKeptOrReplaced s t) (r : SubReturn) :
    PublishedKeptOrReplaced s (returnSub r t) := h

/-- What was in `WORKING` before does not count: a row writes it before its ROW_DONE. -/
theorem of_setWorking {s t : State} {m : Memory} (h : PublishedKeptOrReplaced (setWorking m s) t) :
    PublishedKeptOrReplaced s t := h

theorem raiseCondition (k : PacketKind) (e : Condition) (s : State) :
    PublishedKeptOrReplaced s (raiseCondition k e s) := Or.inl ⟨rfl, rfl, rfl⟩

theorem completeRow (s : State) : PublishedKeptOrReplaced s (completeRow s).1 := by
  by_cases h : wrapWord s.cfg (s.rowsWritten + 1) = s.cfg.rowsPerFrame
  · rw [completeRow_publishes h]
    exact publishFrame (Machine.countRow s)
  · rw [completeRow_counts h]
    exact countRow s

theorem pixelRowEffect (body : RowBody) (s : State) : PublishedKeptOrReplaced s (pixelRowEffect body s) := by
  obtain h | ⟨_, _, _, _, -, -, h⟩ := pixelRowEffect_cases body s <;> rw [h]
  · exact raiseCondition _ _ s
  · exact (of_setWorking (completeRow _)).emitResult _

theorem frameEndEffect (s : State) : PublishedKeptOrReplaced s (frameEndEffect s) := by
  unfold Machine.frameEndEffect
  split
  · exact (publishFrame s).emitResult _
  · exact raiseCondition _ _ s

theorem terminate (e : Condition) (s : State) : PublishedKeptOrReplaced s (terminate e s) := by
  cases hr : s.runState with
  | running => rw [terminate_running hr]; exact Or.inl ⟨rfl, rfl, rfl⟩
  | stopped => rw [terminate_stopped hr]; exact Or.inl ⟨rfl, rfl, rfl⟩

theorem effectOf {i : Instr} (hi : i ≠ .reset) (s : State) : PublishedKeptOrReplaced s (effectOf i s) := by
  cases i with
  | frameStart _ => exact (publishFrame s).emitResult _
  | pixelRow body => exact pixelRowEffect body s
  | frameEnd _ => exact frameEndEffect s
  | unknown _ _ => exact raiseCondition _ _ s
  | unknownShort _ => exact raiseCondition _ _ s
  | stop => exact terminate _ s
  | close => exact terminate _ s
  | acquire => exact Or.inl ⟨rfl, rfl, rfl⟩
  | reset => exact absurd rfl hi
  | convert _ => exact Or.inl ⟨rfl, rfl, rfl⟩
  | rowDone => exact (completeRow s).returnSub _
  | publish => exact publishFrame s

theorem exec {i : Instr} {s t : State} (hi : i ≠ .reset) (h : exec i s = .next t) :
    PublishedKeptOrReplaced s t := by
  obtain ⟨-, -, rfl⟩ | ⟨-, rfl⟩ := exec_cases h
  · exact Or.inl ⟨rfl, rfl, rfl⟩
  · exact effectOf hi s

/-- A new notification is a frame taken whole from `WORKING`. -/
theorem published_of_frameReady_ne {s t : State} (h : PublishedKeptOrReplaced s t)
    (hne : t.frameReady ≠ s.frameReady) : t.published = some t.working := by
  obtain ⟨-, -, hkept⟩ | ⟨hreplaced, -⟩ := h
  · exact absurd hkept hne
  · exact hreplaced

end PublishedKeptOrReplaced

/-- Settles O9: RESET clears, and every other operation keeps or replaces whole. -/
theorem publishedIsKeptOrReplacedWhole : Obligations.PublishedIsKeptOrReplacedWhole := by
  intro i s t h
  by_cases hi : i = .reset
  · subst hi
    cases h
    exact Or.inr (Or.inl ⟨rfl, rfl, rfl, rfl⟩)
  · exact (PublishedKeptOrReplaced.exec hi h).imp_right Or.inr

/-! ### What an operation does to `WORKING` -/

@[simp] theorem completeRow_working (s : State) : (completeRow s).1.working = s.working := by
  unfold completeRow
  split <;> rfl

/-- `WORKING` after a decoded row is what its sample loop leaves, whether or not the row publishes. -/
@[simp] theorem decodeRow_working (row : Nat) (xs : List Sample) (s : State) :
    (decodeRow row xs s).working = (writeSamples s.cfg row 0 xs (s.working, 0)).1 := by
  simp [decodeRow]

@[simp] theorem frameEndEffect_working (s : State) : (frameEndEffect s).working = s.working := by
  unfold frameEndEffect
  split <;> rfl

@[simp] theorem terminate_working (e : Condition) (s : State) : (terminate e s).working = s.working := by
  unfold terminate
  split <;> rfl

/-- Operation `i` is a complete pixel row, and its sample loop turns the `WORKING` of `s` into `m`. -/
def RowLeavesWorking (s : State) (i : Instr) (m : Memory) : Prop :=
  ∃ rowRaw colRaw sizeRaw payload, i = .pixelRow (.full rowRaw colRaw sizeRaw payload) ∧
    payloadTruncated s.cfg sizeRaw payload = false ∧
    m = (writeSamples s.cfg (rowIndex s.cfg rowRaw) 0 (rowSamples s.cfg sizeRaw payload) (s.working, 0)).1

theorem pixelRowEffect_working (body : RowBody) (s : State) :
    (pixelRowEffect body s).working = s.working ∨
      RowLeavesWorking s (.pixelRow body) (pixelRowEffect body s).working := by
  obtain h | ⟨r, k, z, p, rfl, htrunc, h⟩ := pixelRowEffect_cases body s <;> rw [h]
  · exact Or.inl rfl
  · exact Or.inr ⟨r, k, z, p, rfl, htrunc, decodeRow_working _ _ s⟩

theorem effectOf_working {i : Instr} (hi : i ≠ .reset) (s : State) :
    (effectOf i s).working = s.working ∨ RowLeavesWorking s i (effectOf i s).working := by
  cases i with
  | pixelRow body => exact pixelRowEffect_working body s
  | reset => exact absurd rfl hi
  | frameEnd _ => exact Or.inl (frameEndEffect_working s)
  | stop => exact Or.inl (terminate_working _ s)
  | close => exact Or.inl (terminate_working _ s)
  | rowDone => exact Or.inl (completeRow_working s)
  | frameStart _ => exact Or.inl rfl
  | unknown _ _ => exact Or.inl rfl
  | unknownShort _ => exact Or.inl rfl
  | acquire => exact Or.inl rfl
  | convert _ => exact Or.inl rfl
  | publish => exact Or.inl rfl

/-- Only RESET, and a complete row taken while `RUNNING`, touch `WORKING` (`20_memory.md` R47). -/
theorem exec_working {i : Instr} {s t : State} (hi : i ≠ .reset) (h : exec i s = .next t) :
    t.working = s.working ∨ (s.runState = .running ∧ RowLeavesWorking s i t.working) := by
  obtain ⟨-, -, rfl⟩ | ⟨hrun, rfl⟩ := exec_cases h
  · exact Or.inl rfl
  · refine (effectOf_working hi s).imp_right fun hrow => ⟨?_, hrow⟩
    obtain ⟨_, _, _, _, rfl, -⟩ := hrow
    exact hrun.resolve_right nofun

/-- Settles O22: the inversion of `exec` on `WORKING`; ACQUIRE's answer is a function of `PUBLISHED` and
`PUB_VALID`. -/
theorem onlyRowsAndResetWriteWorking : Obligations.OnlyRowsAndResetWriteWorking := by
  refine ⟨fun i s t h hne => ?_, fun s m => exec_acquire { s with working := m }⟩
  by_cases hi : i = .reset
  · exact Or.inr hi
  · obtain ⟨hrun, r, k, z, p, hrow, -⟩ := (exec_working hi h).resolve_left hne
    exact Or.inl ⟨hrun, r, k, z, p, hrow⟩

/-- A cell the row does not cover reads as before its sample loop (`42_scanline_decoder.md` R99). -/
theorem read_writeSamples_of_not_rowCovers {c : Config} {row a : Nat} {xs : List Sample} {m : Memory}
    (hm : Memory.wf m = true) (h : ¬ rowCovers c row xs.length a) :
    Memory.read a (writeSamples c row 0 xs (m, 0)).1 = Memory.read a m := by
  refine (read_writeSamples xs 0 m 0 a hm).2 fun col hlen hrow hcol ha => h ?_
  rw [Nat.zero_add] at hcol ha
  exact ⟨hrow, col, hlen, hcol, ha⟩

/-- Settles O23: `WORKING` is untouched or left by a row's sample loop, which keeps the cells outside the row; a
frame put out is `WORKING` whole. -/
theorem unwrittenCellsKeepTheirValue : Obligations.UnwrittenCellsKeepTheirValue := by
  intro i s t hwf h hi
  refine ⟨fun a ha => ?_, (PublishedKeptOrReplaced.exec hi h).published_of_frameReady_ne⟩
  obtain hkept | ⟨hrun, r, k, z, p, rfl, htrunc, hloop⟩ := exec_working hi h
  · rw [hkept]
  · rw [hloop]
    refine read_writeSamples_of_not_rowCovers hwf fun hcov => ha ⟨hrun, r, k, z, p, rfl, htrunc, ?_⟩
    rwa [rowSamples_length htrunc] at hcov

end Machine

end Sys2Proof

/-! ## Encoding

Datagrams and operations (`30_encoding.md`): the decoder and the encoder said case by case, from that the two round
trips, and the samples of a payload as the byte pairs they came from. -/

namespace Sys2Proof

/-! ### What a marker selects -/

theorem decodeMarked_start (c : Config) (D : Datagram) :
    decodeMarked c c.markerFrameStart D = .frameStart (D.drop c.wordBytes) := by
  rw [decodeMarked, kindOfMarker_start]

theorem decodeMarked_row {c : Config} (hc : c.Wf) (D : Datagram) :
    decodeMarked c c.markerPixelRow D = .pixelRow (decodeRowBody c D) := by
  rw [decodeMarked, kindOfMarker_row hc]

theorem decodeMarked_end {c : Config} (hc : c.Wf) (he : c.frameEndEn = true) (D : Datagram) :
    decodeMarked c c.markerFrameEnd D = .frameEnd (D.drop c.wordBytes) := by
  rw [decodeMarked, kindOfMarker_end hc he]

theorem decodeMarked_unknown {c : Config} {m : Nat} (h : c.recognised m = false) (D : Datagram) :
    decodeMarked c m D = .unknown m (D.drop c.wordBytes) := by
  rw [decodeMarked, kindOfMarker_unknown.2 h]

/-- The marker map as a case split on the marker (`30_encoding.md` R66, R67). -/
theorem marker_cases (c : Config) (m : Nat) :
    m = c.markerFrameStart ∨ m = c.markerPixelRow ∨ (c.frameEndEn = true ∧ m = c.markerFrameEnd) ∨
      c.recognised m = false := by
  cases h : c.recognised m with
  | false => simp
  | true => simpa [Config.recognised, or_assoc] using h

/-- The operation's kind is the map's answer on its marker. -/
theorem decodeMarked_kind? (c : Config) (m : Nat) (D : Datagram) :
    (decodeMarked c m D).kind? = some (kindOfMarker c m) := by
  rw [decodeMarked]
  cases kindOfMarker c m <;> rfl

/-- A header word fits its width. -/
theorem headerWord_lt {c : Config} (hc : c.Wf) {D : Datagram} {off v : Nat} (h : headerWord c D off = some v) :
    v < c.wordRange := (headerWord_cases hc h).2.1

/-- The bytes from a header word on are the word's and the rest. -/
theorem drop_eq_wordWire_append {c : Config} (hc : c.Wf) {D : Datagram} {off v : Nat}
    (h : headerWord c D off = some v) : D.drop off = wordWire c v ++ D.drop (off + c.wordBytes) :=
  (headerWord_cases hc h).2.2

/-- The body of a pixel row, by whether the header is all there: the one inversion of `decodeRowBody`. -/
theorem decodeRowBody_cases {c : Config} (hc : c.Wf) (D : Datagram) :
    (D.length < c.hdrLen ∧ decodeRowBody c D = .short (D.drop c.wordBytes)) ∨
    (c.hdrLen ≤ D.length ∧ ∃ r k z, headerWord c D c.offRow = some r ∧ headerWord c D c.offCol = some k ∧
      headerWord c D c.offSize = some z ∧ decodeRowBody c D = .full r k z (D.drop c.hdrLen)) := by
  rcases Nat.lt_or_ge D.length c.hdrLen with h | h
  · exact Or.inl ⟨h, decodeRowBody_short h⟩
  · exact Or.inr ⟨h, decodeRowBody_full hc h⟩

/-! ### Decode of encode (`30_encoding.md` R57 to R66) -/

@[simp] theorem drop_wordWire_append (c : Config) (m : Nat) (t : List Byte) :
    (wordWire c m ++ t).drop c.wordBytes = t := List.drop_left' (wordWire_length c m)

/-- Bytes that begin with a marker decode to what that marker selects. -/
theorem decode_wordWire_append {c : Config} (hc : c.Wf) {m : Nat} (hm : m < c.wordRange) {t : List Byte}
    (hmax : (wordWire c m ++ t).length ≤ c.maxDgramLen) :
    decode c (wordWire c m ++ t) = .ok (decodeMarked c m (wordWire c m ++ t)) :=
  decode_marked hmax (headerWord_wordWire hc hm t)

/-- A pixel-row header before its three words are put into it. -/
def blankHeader (c : Config) : List Byte :=
  wordWire c c.markerPixelRow ++ List.replicate (c.hdrLen - c.wordBytes) 0

theorem blankHeader_length {c : Config} (hc : c.Wf) : (blankHeader c).length = c.hdrLen := by
  have := hc.rowInHeader
  simp [blankHeader]
  omega

theorem rowHeader_eq (c : Config) (r k z : Nat) :
    rowHeader c r k z = putBytes c.offSize (wordWire c z) (putBytes c.offCol (wordWire c k)
      (putBytes c.offRow (wordWire c r) (blankHeader c))) := rfl

theorem putBytes_wordWire_length {c : Config} {off v : Nat} {D : List Byte} (h : off + c.wordBytes ≤ D.length) :
    (putBytes off (wordWire c v) D).length = D.length := putBytes_length (by simpa using h)

/-- The words of the header the encoder lays out: each put leaves the words at the other offsets alone. -/
theorem headerWord_rowHeader {c : Config} (hc : c.Wf) {r k z : Nat} (hr : r < c.wordRange) (hk : k < c.wordRange)
    (hz : z < c.wordRange) :
    headerWord c (rowHeader c r k z) 0 = some c.markerPixelRow ∧
    headerWord c (rowHeader c r k z) c.offRow = some r ∧
    headerWord c (rowHeader c r k z) c.offCol = some k ∧
    headerWord c (rowHeader c r k z) c.offSize = some z := by
  have hrow : c.offRow + c.wordBytes ≤ (blankHeader c).length := blankHeader_length hc ▸ hc.rowInHeader
  have hcol : c.offCol + c.wordBytes ≤ (putBytes c.offRow (wordWire c r) (blankHeader c)).length := by
    rw [putBytes_wordWire_length hrow, blankHeader_length hc]
    exact hc.colInHeader
  have hsize : c.offSize + c.wordBytes ≤
      (putBytes c.offCol (wordWire c k) (putBytes c.offRow (wordWire c r) (blankHeader c))).length := by
    rw [putBytes_wordWire_length hcol, putBytes_wordWire_length hrow, blankHeader_length hc]
    exact hc.sizeInHeader
  have hafter : ∀ {off : Nat}, c.wordBytes ≤ off → Config.apart c.wordBytes 0 off := fun h => Or.inl (by omega)
  rw [rowHeader_eq]
  refine ⟨?_, ?_, ?_, ?_⟩
  · rw [headerWord_putBytes_other hc hsize (hafter hc.sizeAfterMarker),
      headerWord_putBytes_other hc hcol (hafter hc.colAfterMarker),
      headerWord_putBytes_other hc hrow (hafter hc.rowAfterMarker), blankHeader, headerWord_wordWire hc hc.rowFits]
  · rw [headerWord_putBytes_other hc hsize hc.rowSizeApart, headerWord_putBytes_other hc hcol hc.rowColApart,
      headerWord_putBytes_same hc hr hrow]
  · rw [headerWord_putBytes_other hc hsize hc.colSizeApart, headerWord_putBytes_same hc hk hcol]
  · rw [headerWord_putBytes_same hc hz hsize]

/-- A header the encoder lays out, with its payload, decodes to its three words and that payload. -/
theorem decode_rowHeader_append {c : Config} (hc : c.Wf) {r k z : Nat} {p : List Byte} (hr : r < c.wordRange)
    (hk : k < c.wordRange) (hz : z < c.wordRange) (hmax : (rowHeader c r k z ++ p).length ≤ c.maxDgramLen) :
    decode c (rowHeader c r k z ++ p) = .ok (.pixelRow (.full r k z p)) := by
  have hlen := rowHeader_length hc r k z
  have hread : ∀ {off : Nat}, off + c.wordBytes ≤ c.hdrLen →
      headerWord c (rowHeader c r k z ++ p) off = headerWord c (rowHeader c r k z) off :=
    fun h => headerWord_append (hlen ▸ h)
  obtain ⟨hmarker, hrow, hcol, hsize⟩ := headerWord_rowHeader hc hr hk hz
  have hstart : 0 + c.wordBytes ≤ c.hdrLen := Nat.le_trans (by omega) hc.rowInHeader
  have hhdr : c.hdrLen ≤ (rowHeader c r k z ++ p).length := by simp [hlen]
  obtain ⟨r', k', z', hr', hk', hz', hdec⟩ := decode_pixelRow_full hc hmax ((hread hstart).trans hmarker) hhdr
  rw [hread hc.rowInHeader, hrow] at hr'
  rw [hread hc.colInHeader, hcol] at hk'
  rw [hread hc.sizeInHeader, hsize] at hz'
  cases hr'
  cases hk'
  cases hz'
  rw [hdec, List.drop_left' hlen]

/-- The datagram of a well-formed operation decodes to that operation. -/
theorem decode_encode {c : Config} (hc : c.Wf) {i : Instr} (hw : i.wf c = true) {D : Datagram}
    (he : encode c i = some D) : decode c D = .ok i := by
  cases i with
  | frameStart g =>
    have hmax := Laws.EncodedLength.frameStart g c D hc hw he
    cases he
    rw [decode_wordWire_append hc hc.startFits hmax, decodeMarked_start, drop_wordWire_append]
  | pixelRow body =>
    have hmax := Laws.EncodedLength.pixelRow body c D hc hw he
    cases body with
    | short rest =>
      cases he
      simp only [Instr.wf, RowBody.wf, Bool.and_eq_true, decide_eq_true_eq] at hw
      rw [decode_wordWire_append hc hc.rowFits hmax, decodeMarked_row hc, decodeRowBody_short (by simpa using hw.1),
        drop_wordWire_append]
    | full r k z p =>
      cases he
      simp only [Instr.wf, RowBody.wf, Config.isWord, Bool.and_eq_true, decide_eq_true_eq] at hw
      obtain ⟨⟨⟨hr, hk⟩, hz⟩, -⟩ := hw
      exact decode_rowHeader_append hc hr hk hz hmax
  | frameEnd g =>
    have hmax := Laws.EncodedLength.frameEnd g c D hc hw he
    cases he
    simp only [Instr.wf, Bool.and_eq_true] at hw
    rw [decode_wordWire_append hc hc.endFits hmax, decodeMarked_end hc hw.1, drop_wordWire_append]
  | unknown m g =>
    have hmax := Laws.EncodedLength.unknown m g c D hc hw he
    cases he
    simp only [Instr.wf, Config.isWord, Bool.and_eq_true, decide_eq_true_eq, Bool.not_eq_true'] at hw
    obtain ⟨⟨hm, hunknown⟩, -⟩ := hw
    rw [decode_wordWire_append hc hm hmax, decodeMarked_unknown hunknown, drop_wordWire_append]
  | unknownShort b =>
    have hmax := Laws.EncodedLength.unknownShort b c D hc hw he
    cases he
    simp only [Instr.wf, Bool.and_eq_true, decide_eq_true_eq] at hw
    exact decode_short hmax (headerWord_eq_none.2 (by omega))
  | _ => cases he

/-- Every operation a datagram carries has an encoding, and no other operation has one (`30_encoding.md` R71). -/
theorem encode_isSome (c : Config) (i : Instr) : (encode c i).isSome = i.kind?.isSome := by
  cases i with
  | pixelRow body => cases body <;> rfl
  | _ => rfl

/-- Settles O37: a datagram operation has an encoding, and the decoder reads back each format's marker, words and
bytes. -/
theorem decodeOfEncodeIsTheOperation : Obligations.DecodeOfEncodeIsTheOperation := by
  intro c i hc hw hkind
  obtain ⟨D, hD⟩ := Option.isSome_iff_exists.1 ((encode_isSome c i).trans hkind)
  exact ⟨D, hD, decode_encode hc hw hD⟩

/-! ### Encode of decode (`30_encoding.md` R66 to R68) -/

/-- Under the spec's layout the header is its four words, one after the other (`30_encoding.md` R60). -/
theorem rowHeader_specLayout {c : Config} (hl : c.specLayout) (r k z : Nat) :
    rowHeader c r k z = wordWire c c.markerPixelRow ++ wordWire c r ++ wordWire c k ++ wordWire c z := by
  obtain ⟨hwidth, hrow, hcol, hsize, hhdr⟩ := hl
  simp [rowHeader, putBytes, wordWire, leBytes, Config.wordBytes, hwidth, hrow, hcol, hsize, hhdr]

theorem wordBytes_specLayout {c : Config} (hl : c.specLayout) : c.wordBytes = 4 := by
  rw [Config.wordBytes, hl.1]

/-- Under the spec's layout a datagram with a pixel-row marker and a whole header is the header of its words, and
the bytes after it: the header has no byte outside its words. -/
theorem rowHeader_append_drop {c : Config} (hc : c.Wf) (hl : c.specLayout) {D : Datagram} {r k z : Nat}
    (hm : headerWord c D 0 = some c.markerPixelRow) (hr : headerWord c D c.offRow = some r)
    (hk : headerWord c D c.offCol = some k) (hz : headerWord c D c.offSize = some z) :
    rowHeader c r k z ++ D.drop c.hdrLen = D := by
  have hword := wordBytes_specLayout hl
  rw [rowHeader_specLayout hl]
  obtain ⟨-, hrow, hcol, hsize, hhdr⟩ := hl
  have hm := drop_eq_wordWire_append hc hm
  have hr := drop_eq_wordWire_append hc hr
  have hk := drop_eq_wordWire_append hc hk
  have hz := drop_eq_wordWire_append hc hz
  simp only [hword, hrow, hcol, hsize, List.drop_zero, Nat.zero_add, Nat.reduceAdd] at hm hr hk hz
  rw [hhdr, List.append_assoc, List.append_assoc, List.append_assoc, ← hz, ← hk, ← hr, ← hm]

/-- Settles O38: each format's bytes are its marker and the rest, and a whole header is its four words. -/
theorem encodeOfDecodeIsTheDatagram : Obligations.EncodeOfDecodeIsTheDatagram := by
  intro c D i hc hl h
  obtain ⟨-, ⟨-, rfl⟩ | ⟨m, hm, rfl⟩⟩ := decode_cases h
  · rfl
  have hbytes : wordWire c m ++ D.drop c.wordBytes = D := (eq_wordWire_append hc hm).symm
  obtain rfl | rfl | ⟨hen, rfl⟩ | hunknown := marker_cases c m
  · rw [decodeMarked_start, encode, hbytes]
  · rw [decodeMarked_row hc]
    obtain ⟨-, hbody⟩ | ⟨-, r, k, z, hr, hk, hz, hbody⟩ := decodeRowBody_cases hc D
    · rw [hbody, encode, hbytes]
    · rw [hbody, encode, rowHeader_append_drop hc hl hm hr hk hz]
  · rw [decodeMarked_end hc hen, encode, hbytes]
  · rw [decodeMarked_unknown hunknown, encode, hbytes]

/-! ### Every datagram decodes to a well-formed operation (`30_encoding.md` R70) -/

theorem classify_short {c : Config} {D : Datagram} (h : headerWord c D 0 = none) : classify c D = .unknown := by
  rw [classify, h]

theorem classify_marked {c : Config} {D : Datagram} {m : Nat} (h : headerWord c D 0 = some m) :
    classify c D = kindOfMarker c m := by
  rw [classify, h]

/-- The decoder gives every datagram the kind the classifier gives it. -/
theorem decode_kind? {c : Config} {D : Datagram} {i : Instr} (h : decode c D = .ok i) :
    i.kind? = some (classify c D) := by
  obtain ⟨-, ⟨hm, rfl⟩ | ⟨m, hm, rfl⟩⟩ := decode_cases h
  · rw [classify_short hm, Instr.kind?]
  · rw [classify_marked hm, decodeMarked_kind?]

theorem decodeRowBody_wf {c : Config} (hc : c.Wf) {D : Datagram} (hmax : D.length ≤ c.maxDgramLen)
    (hmarker : c.wordBytes ≤ D.length) : (decodeRowBody c D).wf c = true := by
  obtain ⟨hlen, hbody⟩ | ⟨hlen, r, k, z, hr, hk, hz, hbody⟩ := decodeRowBody_cases hc D
  · simp [hbody, RowBody.wf]
    omega
  · simp [hbody, RowBody.wf, Config.isWord, headerWord_lt hc hr, headerWord_lt hc hk, headerWord_lt hc hz]
    omega

/-- What the decoder reads is well formed. -/
theorem decode_wf {c : Config} (hc : c.Wf) {D : Datagram} {i : Instr} (h : decode c D = .ok i) : i.wf c = true := by
  obtain ⟨hmax, ⟨hm, rfl⟩ | ⟨m, hm, rfl⟩⟩ := decode_cases h
  · rw [headerWord_eq_none] at hm
    simp [Instr.wf]
    omega
  obtain ⟨hlen, hword, -⟩ := headerWord_cases hc hm
  have hrest : c.wordBytes + (D.drop c.wordBytes).length ≤ c.maxDgramLen := by
    rw [List.length_drop]
    omega
  obtain rfl | rfl | ⟨hen, rfl⟩ | hunknown := marker_cases c m
  · rw [decodeMarked_start, Instr.wf, decide_eq_true hrest]
  · rw [decodeMarked_row hc]
    exact decodeRowBody_wf hc hmax (by omega)
  · rw [decodeMarked_end hc hen, Instr.wf, hen, decide_eq_true hrest, Bool.and_self]
  · rw [decodeMarked_unknown hunknown]
    simp only [Instr.wf, Config.isWord, hword, hunknown, hrest, decide_true, Bool.not_false, Bool.and_self]

/-- Settles O36: only its length keeps a datagram from decoding; the operation has the classifier's kind, and the
format conditions are what its words and length give. -/
theorem decodingIsTotal : Obligations.DecodingIsTotal := by
  intro c D hc hmax
  cases hd : decode c D with
  | ok i => exact ⟨i, rfl, decode_kind? hd, decode_wf hc hd⟩
  | error e => exact absurd (Machine.maxDgramLen_lt_of_decode_error hd) (by omega)

/-! ### Samples and the bytes of a payload (`30_encoding.md` R64, R69, R72) -/

/-- A row with a whole header came from a datagram that has one, and its payload is what follows. -/
theorem payload_of_decode {c : Config} (hc : c.Wf) {D : Datagram} {r k z : Nat} {p : List Byte}
    (h : decode c D = .ok (.pixelRow (.full r k z p))) : p = D.drop c.hdrLen := by
  obtain ⟨-, ⟨-, hi⟩ | ⟨m, -, hi⟩⟩ := decode_cases h
  · cases hi
  obtain rfl | rfl | ⟨hen, rfl⟩ | hunknown := marker_cases c m
  · rw [decodeMarked_start] at hi
    cases hi
  · rw [decodeMarked_row hc] at hi
    obtain ⟨-, hbody⟩ | ⟨-, _, _, _, -, -, -, hbody⟩ := decodeRowBody_cases hc D
    · rw [hbody] at hi
      cases hi
    · rw [hbody] at hi
      cases hi
      rfl
  · rw [decodeMarked_end hc hen] at hi
    cases hi
  · rw [decodeMarked_unknown hunknown] at hi
    cases hi

theorem be16_eq_some {D : List Byte} {off : Nat} {s : Sample} :
    be16 D off = some s ↔ ∃ hi lo, D[off]? = some hi ∧ D[off + 1]? = some lo ∧ s = sampleOfBytes hi lo := by
  have h0 : D[off]? = (D.drop off)[0]? := by simp
  have h1 : D[off + 1]? = (D.drop off)[1]? := by simp
  rw [be16, h0, h1]
  rcases D.drop off with _ | ⟨hi, _ | ⟨lo, t⟩⟩ <;> simp [eq_comm]

/-- Bytes appended change no pair that is there. -/
theorem be16_append {A : List Byte} {off : Nat} (h : off + 2 ≤ A.length) (B : List Byte) :
    be16 (A ++ B) off = be16 A off := by
  obtain ⟨s, hs⟩ := Option.isSome_iff_exists.1 (be16_isSome.2 h)
  obtain ⟨hi, lo, hhi, hlo, rfl⟩ := be16_eq_some.1 hs
  rw [hs, be16_eq_some]
  exact ⟨hi, lo, by rw [List.getElem?_append_left (by omega), hhi],
    by rw [List.getElem?_append_left (by omega), hlo], rfl⟩

/-- The byte pair as the unsigned value of R64: the first byte times 256 plus the second. -/
theorem sampleOfBytes_eq_ofNat (hi lo : Byte) : sampleOfBytes hi lo = BitVec.ofNat 16 (hi.toNat * 256 + lo.toNat) := by
  apply BitVec.eq_of_toNat_eq
  have := hi.isLt
  have := lo.isLt
  rw [sampleOfBytes, BitVec.toNat_append, ← Nat.shiftLeft_add_eq_or_of_lt lo.isLt, Nat.shiftLeft_eq,
    BitVec.toNat_ofNat]
  omega

namespace Machine

/-- Settles O15: sample `i` is the byte pair at `2i` of the payload, which is the datagram from `HDR_LEN` on. -/
theorem samplesAreBigEndianPairs : Obligations.SamplesAreBigEndianPairs := by
  intro c D r k z p hc hdec htrunc i hlt
  have hlen := payloadTruncated_eq_false.1 htrunc
  obtain ⟨s, hs⟩ := Option.isSome_iff_exists.1 (be16_isSome.2 (show 2 * i + 2 ≤ p.length by omega))
  obtain ⟨hi, lo, hhi, hlo, rfl⟩ := be16_eq_some.1 hs
  rw [payload_of_decode hc hdec, List.getElem?_drop] at hhi hlo
  exact ⟨hi, lo, hhi, hlo, by rw [rowSamples_getElem? hlt, hs, sampleOfBytes_eq_ofNat]⟩

theorem payloadTruncated_append {c : Config} {z : Nat} {p : List Byte} (h : payloadTruncated c z p = false)
    (extra : List Byte) : payloadTruncated c z (p ++ extra) = false := by
  rw [payloadTruncated_eq_false] at h ⊢
  rw [List.length_append]
  omega

/-- Bytes after a complete payload are no samples of the row. -/
theorem rowSamples_append {c : Config} {z : Nat} {p : List Byte} (h : payloadTruncated c z p = false)
    (extra : List Byte) : rowSamples c z (p ++ extra) = rowSamples c z p := by
  have hlen := payloadTruncated_eq_false.1 h
  have hfull := payloadTruncated_append h extra
  refine List.ext_getElem? fun i => ?_
  rcases Nat.lt_or_ge i (sampleCount c z) with hi | hi
  · rw [rowSamples_getElem? hi, rowSamples_getElem? hi, be16_append (by omega)]
  · rw [List.getElem?_eq_none (by rwa [rowSamples_length hfull]), List.getElem?_eq_none (by rwa [rowSamples_length h])]

theorem pixelRowEffect_complete {s : State} {r k z : Nat} {p : List Byte}
    (h : payloadTruncated s.cfg z p = false) :
    pixelRowEffect (.full r k z p) s = decodeRow (rowIndex s.cfg r) (rowSamples s.cfg z p) s :=
  if_neg (by simp [h])

/-- Two operations that no run state tells apart and that have one effect have one outcome. -/
theorem exec_congr {i j : Instr} {s : State} (hk : i.kind? = j.kind?) (h : effectOf i s = effectOf j s) :
    exec i s = exec j s := by
  cases hr : s.runState with
  | running => rw [exec_running i hr, exec_running j hr, h]
  | stopped => rw [exec_stopped i hr, exec_stopped j hr, hk, h]

/-- Settles O20: bytes after the declared samples enter neither the length check nor the row's samples; the two frame
markers' effects take no byte at all. -/
theorem trailingBytesAreIgnored : Obligations.TrailingBytesAreIgnored := by
  refine ⟨fun r k z p extra s h => exec_congr rfl ?_, fun g s => ⟨exec_congr rfl rfl, exec_congr rfl rfl⟩⟩
  simp only [effectOf]
  rw [pixelRowEffect_complete h, pixelRowEffect_complete (payloadTruncated_append h extra), rowSamples_append h]

/-! ### Program lines (`30_encoding.md` R72) -/

/-- The two bytes of a sample make it up again. -/
theorem sampleOfBytes_extractLsb' (x : Sample) : sampleOfBytes (x.extractLsb' 8 8) (x.extractLsb' 0 8) = x :=
  (BitVec.extractLsb'_append_extractLsb'_eq_extractLsb' (x := x) (start₁ := 0) (len₁ := 8) (len₂ := 8) rfl).trans
    BitVec.extractLsb'_eq_self

theorem samplesOf_flatMap_be16Bytes (xs : List Sample) : samplesOf (xs.flatMap be16Bytes) = xs := by
  induction xs with
  | nil => rfl
  | cons x xs ih =>
    have hcons : (x :: xs).flatMap be16Bytes = x.extractLsb' 8 8 :: x.extractLsb' 0 8 :: xs.flatMap be16Bytes := rfl
    rw [hcons, samplesOf, sampleOfBytes_extractLsb', ih]

theorem length_flatMap_be16Bytes (xs : List Sample) : (xs.flatMap be16Bytes).length = 2 * xs.length := by
  simp [be16Bytes, Nat.mul_comm]

/-- Under the spec's layout a `PRX` line is the encoder's header and its samples' bytes. -/
theorem prxBytes_eq_rowHeader_append {c : Config} (hl : c.specLayout) (rr cr n : BitVec 32) (samples : List Sample) :
    prxBytes c rr cr n samples = rowHeader c rr.toNat cr.toNat n.toNat ++ samples.flatMap be16Bytes := by
  rw [rowHeader_specLayout hl, prxBytes]

/-- Settles O40: the line is the encoder's header with the samples' bytes, which the decoder reads back. -/
theorem programLinesDecodeToTheirRow : Obligations.ProgramLinesDecodeToTheirRow := by
  intro c rr cr n samples D hc hl hline hmax
  have hfits : ∀ v : BitVec 32, v.toNat < c.wordRange := fun v => by
    rw [Config.wordRange, hl.1]
    exact v.isLt
  cases hline
  rw [prxBytes_eq_rowHeader_append hl] at hmax ⊢
  exact ⟨_, decode_rowHeader_append hc (hfits rr) (hfits cr) (hfits n) hmax, length_flatMap_be16Bytes samples,
    by rw [rowSamples, samplesOf_flatMap_be16Bytes]⟩

/-! ### The row index (`30_encoding.md` R61) -/

theorem rowIndex_zero (c : Config) : rowIndex c 0 = c.wordRange - 1 := by
  have := wordRange_pos c
  rw [rowIndex, lessOne, Nat.zero_add, wrapWord_of_lt (by omega)]

theorem rowIndex_of_pos {c : Config} {r : Nat} (hpos : 0 < r) (hr : r < c.wordRange) : rowIndex c r = r - 1 := by
  have hsum : r + (c.wordRange - 1) = r - 1 + c.wordRange := by omega
  rw [rowIndex, lessOne, wrapWord, hsum, Nat.add_mod_right, Nat.mod_eq_of_lt (by omega)]

/-- Settles O14: subtracting one wraps only at 0, and the value it wraps to is not below any frame's height. -/
theorem rowIndexIsRawLessOne : Obligations.RowIndexIsRawLessOne := by
  refine ⟨fun c r hr => ?_, fun c h32 => ?_, fun c col hc => ?_⟩
  · split
    · subst r
      exact rowIndex_zero c
    · exact rowIndex_of_pos (by omega) hr
  · simp [rowIndex_zero, Config.wordRange, h32]
  · have hout : ¬ rowIndex c 0 < c.frameH := by
      have := hc.heightFits
      rw [rowIndex_zero]
      omega
    exact Bool.eq_false_iff.2 fun hin => hout (inBounds_iff.1 hin).2

/-- Settles O39: the default decoder, run on each word and datagram. -/
theorem writtenOutWordsDecode : Obligations.WrittenOutWordsDecode :=
  ⟨rfl, rfl, rfl, rfl, rfl, rfl, rfl⟩

end Machine

end Sys2Proof

/-! ## The color converter

CONVERT (`40_color_converter.md`): scaling to at least as many values as the field has is strictly increasing, and from
that the extremes, the order and the injectivity of the three channels. -/

namespace Sys2Proof.Machine

/-! ### The operation -/

/-- CONVERT runs in either `RUN_STATE` and hands the cell back (R73). -/
theorem exec_convert (x : Sample) (s : State) :
    exec (.convert x) s = .next (returnSub (.cell (convertSample s.cfg x)) s) := rfl

/-- What a sub-operation hands back is no element of the block. -/
theorem sameBlock_returnSub (r : SubReturn) (s : State) : SameBlock s (returnSub r s) :=
  ⟨rfl, rfl, rfl, rfl, rfl, rfl⟩

/-- The cell as arithmetic on the sample's value (R74, R75). -/
theorem convertSample_eq (c : Config) (x : Sample) :
    convertSample c x = x.toNat / 2048 * c.channelMax / 31 * 2 ^ (2 * c.channelWidth) +
      x.toNat / 32 % 64 * c.channelMax / 63 * 2 ^ c.channelWidth + x.toNat % 32 * c.channelMax / 31 := by
  simp only [convertSample, packCell, scaleChannel, red5_eq, green6_eq, blue5_eq]

theorem channelMax_of_width_8 {c : Config} (h : c.channelWidth = 8) : c.channelMax = 255 := by
  simp [Config.channelMax, h]

/-- Settles O11: the returned cell is the arithmetic form of `convertSample`, whose three constants at the width 8 are
the rule's. -/
theorem convertRescalesEachField : Obligations.ConvertRescalesEachField := by
  rintro x s n top rfl rfl
  have hexec := exec_convert x s
  rw [convertSample_eq] at hexec
  refine ⟨hexec, fun h8 => ?_⟩
  rw [channelMax_of_width_8 h8, h8] at hexec
  exact hexec

/-! ### One channel -/

@[simp] theorem scaleChannel_zero (c : Config) (d : Nat) : scaleChannel c 0 d = 0 := by
  simp [scaleChannel]

theorem scaleChannel_self (c : Config) {d : Nat} (hd : 0 < d) : scaleChannel c d d = c.channelMax :=
  Nat.mul_div_cancel_left _ hd

theorem scaleChannel_le_channelMax {c : Config} {x d : Nat} (h : x ≤ d) (hd : 0 < d) :
    scaleChannel c x d ≤ c.channelMax :=
  scaleChannel_self c hd ▸ scaleChannel_mono h

/-- One more in the field adds the channel's maximum to the product, at least one whole divisor. -/
theorem scaleChannel_strictMono {c : Config} {d : Nat} (hd : 0 < d) (hfits : d ≤ c.channelMax) :
    StrictMono fun x => scaleChannel c x d := by
  refine strictMono_nat_of_lt_succ fun x => ?_
  calc scaleChannel c x d < x * c.channelMax / d + 1 := Nat.lt_succ_self _
    _ = (x * c.channelMax + d) / d := (Nat.add_div_right _ hd).symm
    _ ≤ (x * c.channelMax + c.channelMax) / d := Nat.div_le_div_right (Nat.add_le_add_left hfits _)
    _ = scaleChannel c (x + 1) d := by rw [scaleChannel, Nat.succ_mul]

theorem scaleChannel_inj {c : Config} {x y d : Nat} (hd : 0 < d) (hfits : d ≤ c.channelMax) :
    scaleChannel c x d = scaleChannel c y d ↔ x = y :=
  (scaleChannel_strictMono hd hfits).injective.eq_iff

/-- A channel is at its maximum only where its field is (R76). -/
theorem scaleChannel_eq_channelMax {c : Config} {x d : Nat} (hd : 0 < d) (hfits : d ≤ c.channelMax) :
    scaleChannel c x d = c.channelMax ↔ x = d := by
  rw [← scaleChannel_self c hd, scaleChannel_inj hd hfits]

/-- A channel is 0 only where its field is (R76). -/
theorem scaleChannel_eq_zero {c : Config} {x d : Nat} (hd : 0 < d) (hfits : d ≤ c.channelMax) :
    scaleChannel c x d = 0 ↔ x = 0 := by
  simpa using scaleChannel_inj (c := c) (x := x) (y := 0) hd hfits

/-! ### The three channels of a cell -/

/-- Settles O12: the outcome depends on the parameters alone, and each channel is its scaled field, whose extremes
strict monotonicity makes exact. -/
theorem convertIsPureWithExactExtremes : Obligations.ConvertIsPureWithExactExtremes := by
  intro c x hc
  have h63 : 63 ≤ c.channelMax := le_channelMax hc
  have h31 : 31 ≤ c.channelMax := by omega
  obtain ⟨hred, hgreen, hblue, -⟩ := convertSample_spec c x
  rw [hred, hgreen, hblue]
  refine ⟨?pure, scaleChannel_le_channelMax (red5_le x) (by decide),
    scaleChannel_le_channelMax (green6_le x) (by decide), scaleChannel_le_channelMax (blue5_le x) (by decide),
    channelMax_of_width_8, scaleChannel_eq_channelMax (by decide) h31, scaleChannel_eq_channelMax (by decide) h63,
    scaleChannel_eq_channelMax (by decide) h31, scaleChannel_eq_zero (by decide) h31,
    scaleChannel_eq_zero (by decide) h63, scaleChannel_eq_zero (by decide) h31⟩
  case pure =>
    rintro s s' rfl hcfg
    refine ⟨_, _, exec_convert x s, exec_convert x s', sameBlock_returnSub _ s, ?_, rfl⟩
    rw [hcfg]
    rfl

/-- A sample is its three fields (R74). -/
theorem sample_ext {x y : Sample} (hred : red5 x = red5 y) (hgreen : green6 x = green6 y)
    (hblue : blue5 x = blue5 y) : x = y := by
  rw [red5_eq, red5_eq] at hred
  rw [green6_eq, green6_eq] at hgreen
  rw [blue5_eq, blue5_eq] at hblue
  apply BitVec.eq_of_toNat_eq
  omega

/-- No two samples give one cell (R77): the cell gives its channels, and each channel its field. -/
theorem convertSample_injective {c : Config} (hc : c.Wf) : Function.Injective (convertSample c) := by
  intro x y hxy
  have h63 : 63 ≤ c.channelMax := le_channelMax hc
  have h31 : 31 ≤ c.channelMax := by omega
  obtain ⟨hxr, hxg, hxb, -⟩ := convertSample_spec c x
  obtain ⟨hyr, hyg, hyb, -⟩ := convertSample_spec c y
  rw [hxy] at hxr hxg hxb
  exact sample_ext ((scaleChannel_inj (by decide) h31).1 (hxr.symm.trans hyr))
    ((scaleChannel_inj (by decide) h63).1 (hxg.symm.trans hyg))
    ((scaleChannel_inj (by decide) h31).1 (hxb.symm.trans hyb))

/-- Settles O13: injectivity of the cell in the sample, and monotonicity of scaling for each channel. -/
theorem convertIsInjectiveAndMonotone : Obligations.ConvertIsInjectiveAndMonotone := by
  intro c x y hc
  obtain ⟨hxr, hxg, hxb, -⟩ := convertSample_spec c x
  obtain ⟨hyr, hyg, hyb, -⟩ := convertSample_spec c y
  rw [hxr, hxg, hxb, hyr, hyg, hyb]
  exact ⟨fun hxy => convertSample_injective hc hxy, scaleChannel_mono, scaleChannel_mono, scaleChannel_mono⟩

end Sys2Proof.Machine

/-! ## The classifier

CLASSIFY (`41_classifier.md`): what is in the marker map and what is not, and the length check that comes before it. -/

namespace Sys2Proof

/-- The markers outside the map; the frame-end marker is one of them when it is disabled (R83, R84). -/
theorem recognised_eq_false {c : Config} {m : Nat} :
    c.recognised m = false ↔
      m ≠ c.markerFrameStart ∧ m ≠ c.markerPixelRow ∧ (c.frameEndEn = true → m ≠ c.markerFrameEnd) := by
  simp [Config.recognised, and_assoc]

/-- The frame-end marker disabled is outside the map, since it is neither of the other two (R83, decision D11). -/
theorem kindOfMarker_end_disabled {c : Config} (hc : c.Wf) (he : c.frameEndEn = false) :
    kindOfMarker c c.markerFrameEnd = .unknown :=
  kindOfMarker_unknown.2 (recognised_eq_false.2 ⟨hc.startNeEnd.symm, hc.rowNeEnd.symm, by simp [he]⟩)

theorem kindOfMarker_other {c : Config} {m : Nat} (hstart : m ≠ c.markerFrameStart) (hrow : m ≠ c.markerPixelRow)
    (hend : m ≠ c.markerFrameEnd) : kindOfMarker c m = .unknown :=
  kindOfMarker_unknown.2 (recognised_eq_false.2 ⟨hstart, hrow, fun _ => hend⟩)

/-- The length check (R80). -/
theorem classify_of_length_lt {c : Config} {D : Datagram} (h : D.length < c.wordBytes) : classify c D = .unknown :=
  classify_short (headerWord_eq_none.2 (by omega))

namespace Machine

/-- Settles O34: the length check, the map's answer on each marker, and the marker's four bytes at the width 32. -/
theorem classifierFollowsTheMarkerMap : Obligations.ClassifierFollowsTheMarkerMap := by
  intro c D hc
  refine ⟨classify_of_length_lt, fun m hm => ?map, fun h32 => ⟨fun hlen => ?short, ?bytes⟩⟩
  case map =>
    rw [classify_marked hm]
    refine ⟨?_, ?_, ?_, ?_, kindOfMarker_other⟩
    · rintro rfl
      exact kindOfMarker_start
    · rintro rfl
      exact kindOfMarker_row hc
    · rintro rfl he
      exact kindOfMarker_end hc he
    · rintro rfl he
      exact kindOfMarker_end_disabled hc he
  case short => exact classify_of_length_lt (by rwa [Config.wordBytes, h32])
  case bytes =>
    rintro b0 b1 b2 b3 tail rfl
    rw [headerWord_of_width_32 h32, leWord_four]
    exact ⟨b0, b1, b2, b3, rfl, rfl, rfl, rfl, rfl⟩

end Machine

end Sys2Proof

/-! ## The scanline decoder

PIXEL_ROW (`42_scanline_decoder.md`): the one cell a write touches, the row that is dropped before any write, and the
row that is decoded. -/

namespace Sys2Proof.Machine

/-! ### WriteWorking (R98) -/

theorem cellAt_write_same {c : Config} {col row v : Nat} {m : Memory} (hm : Memory.wf m = true)
    (hcol : col < c.frameW) (hrow : row < c.frameH) :
    cellAt c (Memory.write (cellIndex c col row) v m) col row = some v := by
  rw [cellAt_of_lt hcol hrow, Memory.read_write hm, if_pos rfl]

/-- Cells of the frame at different positions have different indexes, so a write to one shows at no other. -/
theorem cellAt_write_other {c : Config} {col row col' row' v : Nat} {m : Memory} (hm : Memory.wf m = true)
    (hcol : col < c.frameW) (hne : col' ≠ col ∨ row' ≠ row) :
    cellAt c (Memory.write (cellIndex c col row) v m) col' row' = cellAt c m col' row' := by
  by_cases hin : inBounds c col' row' = true
  · obtain ⟨hcol', hrow'⟩ := inBounds_iff.1 hin
    have hidx : cellIndex c col' row' ≠ cellIndex c col row := fun h =>
      have ⟨hc, hr⟩ := cellIndex_inj hcol' hcol h
      hne.elim (· hc) (· hr)
    rw [cellAt_of_lt hcol' hrow', cellAt_of_lt hcol' hrow', Memory.read_write hm, if_neg hidx]
  · rw [cellAt, cellAt, if_neg hin, if_neg hin]

/-- Settles O16: the bounds test, and inside it the read-after-write law, by index and by position. -/
theorem writeWorkingIsBoundsChecked : Obligations.WriteWorkingIsBoundsChecked := by
  intro c col row rgb m hm
  refine ⟨writeWorking_rejected, fun hrow hcol => ⟨_, writeWorking_accepted hrow hcol, Memory.wf_write hm,
    cellAt_write_same hm hcol hrow, fun a ha => ?_, fun _ _ hne => cellAt_write_other hm hcol hne⟩⟩
  rw [Memory.read_write hm, if_neg ha]

/-! ### The truncated row (R88, R90, R91) -/

theorem payloadTruncated_eq_true {c : Config} {z : Nat} {p : List Byte} :
    payloadTruncated c z p = true ↔ p.length < 2 * sampleCount c z := decide_eq_true_iff

theorem exec_pixelRow_short {s : State} (hrun : s.runState = .running) (rest : List Byte) :
    exec (.pixelRow (.short rest)) s = .next (raiseCondition .pixelRow .truncatedPacket s) :=
  exec_running _ hrun

theorem exec_pixelRow_truncated {s : State} {r k z : Nat} {p : List Byte} (hrun : s.runState = .running)
    (h : payloadTruncated s.cfg z p = true) :
    exec (.pixelRow (.full r k z p)) s = .next (raiseCondition .pixelRow .truncatedPacket s) :=
  (exec_running _ hrun).trans (congrArg _ (if_pos h))

/-- Settles O17: a missing header and a short payload raise the same condition, and a datagram with the row marker
decodes to the one or to the other by its length. -/
theorem truncatedRowChangesNothing : Obligations.TruncatedRowChangesNothing := by
  refine ⟨fun rest s hrun => exec_pixelRow_short hrun rest,
    fun r k z p s hrun hlen => exec_pixelRow_truncated hrun (payloadTruncated_eq_true.2 hlen), ?bytes⟩
  case bytes =>
    intro s D rest hc hrun hin hmax hmarker hshort
    have hrun' : (takeOffer s).runState = .running := hrun
    have hdec := decode_marked hmax hmarker
    rw [decodeMarked_row hc] at hdec
    obtain ⟨-, hbody⟩ | ⟨hhdr, r, k, z, -, -, hz, hbody⟩ := decodeRowBody_cases hc D
    · rw [hbody] at hdec
      rw [step_datagram hin hrun hdec, exec_pixelRow_short hrun', takeOffer_of_cons hin]
      rfl
    · obtain ⟨z', hz', hlen⟩ := hshort.resolve_left (Nat.not_lt.2 hhdr)
      obtain rfl : z = z' := Option.some.inj (hz.symm.trans hz')
      have htrunc : payloadTruncated s.cfg z (D.drop s.cfg.hdrLen) = true := by
        rw [payloadTruncated_eq_true, List.length_drop, sampleCount, wrapWord_eq]
        omega
      rw [hbody] at hdec
      rw [step_datagram hin hrun hdec, exec_pixelRow_truncated hrun' htrunc, takeOffer_of_cons hin]
      rfl

/-! ### The complete row (R87, R94 to R99) -/

theorem exec_pixelRow_complete {s : State} {r k z : Nat} {p : List Byte} (hrun : s.runState = .running)
    (h : payloadTruncated s.cfg z p = false) :
    exec (.pixelRow (.full r k z p)) s = .next (decodeRow (rowIndex s.cfg r) (rowSamples s.cfg z p) s) := by
  rw [exec_running _ hrun, effectOf, pixelRowEffect_complete h]

/-- A column of the frame that has a sample holds it, converted, after the row's loop. -/
theorem read_writeSamples_column {c : Config} {row i : Nat} {x : Sample} {xs : List Sample} {m : Memory}
    (hm : Memory.wf m = true) (hx : xs[i]? = some x) (hcol : i < c.frameW) (hrow : row < c.frameH) :
    Memory.read (cellIndex c i row) (writeSamples c row 0 xs (m, 0)).1 = convertSample c x :=
  (read_writeSamples xs 0 m 0 _ hm).1 i x hx hrow (by omega) (by rw [Nat.zero_add])

/-- Settles O18: the cells and the rejected count are those of the sample loop, and the rest of the state follows
ROW_DONE's two cases. -/
theorem completeRowWritesCountsAndReports : Obligations.CompleteRowWritesCountsAndReports := by
  intro r k z p s hrun hwf hlen
  change 2 * sampleCount s.cfg z ≤ p.length at hlen
  have htrunc := payloadTruncated_eq_false.2 hlen
  have hcount := rowSamples_length htrunc
  obtain ⟨m, oor, hloop, hdone⟩ := decodeRow_cases (rowIndex s.cfg r) (rowSamples s.cfg z p) s
  have hstore : _ = m := congrArg Prod.fst hloop
  have hoor : _ = oor := congrArg Prod.snd hloop
  refine ⟨m, sampleCount s.cfg z, rowIndex s.cfg r, oor, rfl, rfl, ?rejected, ?canonical, ?written, ?kept, ?counts,
    ?publishes⟩
  case rejected => rw [← hoor, writeSamples_rejectedCount, hcount]
  case canonical => exact hstore ▸ writeSamples_wf _ _ _ _ hwf
  case written =>
    intro i hi hcol hrow
    obtain ⟨x, hx⟩ := Option.isSome_iff_exists.1 (be16_isSome.2 (show 2 * i + 2 ≤ p.length by omega))
    have hsample := (rowSamples_getElem? hi).trans hx
    exact ⟨x, hx, by rw [cellAt_of_lt hcol hrow, ← hstore, read_writeSamples_column hwf hsample hcol hrow]⟩
  case kept =>
    intro a ha
    exact hstore ▸ read_writeSamples_of_not_rowCovers hwf (by rwa [hcount])
  case counts =>
    intro hne
    obtain ⟨heq, -⟩ | ⟨-, hrow⟩ := hdone
    · exact absurd heq hne
    · rw [exec_pixelRow_complete hrun htrunc, hrow]
      rfl
  case publishes =>
    intro heq
    obtain ⟨-, hrow⟩ | ⟨hne, -⟩ := hdone
    · rw [exec_pixelRow_complete hrun htrunc, hrow]
      rfl
    · exact absurd heq hne

/-- Settles O19: no branch of the row's effect reads the column word. -/
theorem columnCountHasNoEffect : Obligations.ColumnCountHasNoEffect :=
  fun _ _ _ _ _ _ => exec_congr rfl rfl

/-! ### Two rows (R100) -/

@[simp] theorem completeRow_cfg (s : State) : (completeRow s).1.cfg = s.cfg := by
  unfold completeRow
  split <;> rfl

@[simp] theorem completeRow_runState (s : State) : (completeRow s).1.runState = s.runState := by
  unfold completeRow
  split <;> rfl

/-- ROW_DONE's count is a function of the count before it (R101). -/
theorem completeRow_rowsWritten (s : State) : (completeRow s).1.rowsWritten =
    if wrapWord s.cfg (s.rowsWritten + 1) = s.cfg.rowsPerFrame then 0 else wrapWord s.cfg (s.rowsWritten + 1) := by
  by_cases h : wrapWord s.cfg (s.rowsWritten + 1) = s.cfg.rowsPerFrame
  · rw [completeRow_publishes h, if_pos h]
    rfl
  · rw [completeRow_counts h, if_neg h]
    rfl

theorem completeRow_rowsWritten_congr {s t : State} (hcfg : s.cfg = t.cfg) (h : s.rowsWritten = t.rowsWritten) :
    (completeRow s).1.rowsWritten = (completeRow t).1.rowsWritten := by
  rw [completeRow_rowsWritten, completeRow_rowsWritten, hcfg, h]

@[simp] theorem decodeRow_cfg (row : Nat) (xs : List Sample) (s : State) : (decodeRow row xs s).cfg = s.cfg := by
  simp [decodeRow]

@[simp] theorem decodeRow_runState (row : Nat) (xs : List Sample) (s : State) :
    (decodeRow row xs s).runState = s.runState := by
  simp [decodeRow]

/-- The count after a row depends neither on which row it is nor on its samples. -/
theorem decodeRow_rowsWritten (row : Nat) (xs : List Sample) (s : State) :
    (decodeRow row xs s).rowsWritten = (completeRow s).1.rowsWritten :=
  completeRow_rowsWritten_congr (s := setWorking _ s) rfl rfl

/-- No cell belongs to two rows. -/
theorem row_eq_of_rowCovers {c : Config} {row row' n n' a : Nat} (h : rowCovers c row n a)
    (h' : rowCovers c row' n' a) : row = row' := by
  obtain ⟨-, col, -, hcol, rfl⟩ := h
  obtain ⟨-, col', -, hcol', ha⟩ := h'
  exact (cellIndex_inj hcol hcol' ha).2

/-- What a covered cell reads as after the loop does not depend on the store before it. -/
theorem read_writeSamples_congr {c : Config} {row a : Nat} {xs : List Sample} {m m' : Memory}
    (hm : Memory.wf m = true) (hm' : Memory.wf m' = true) (h : rowCovers c row xs.length a) :
    Memory.read a (writeSamples c row 0 xs (m, 0)).1 = Memory.read a (writeSamples c row 0 xs (m', 0)).1 := by
  obtain ⟨hrow, col, hlen, hcol, rfl⟩ := h
  have hx := List.getElem?_eq_getElem hlen
  rw [read_writeSamples_column hm hx hcol hrow, read_writeSamples_column hm' hx hcol hrow]

section
variable {c : Config} {row row' a : Nat} {xs ys : List Sample} {m : Memory}

/-- At a cell that the one row does not cover, its loop may run before or after the other's. -/
theorem read_writeSamples_comm_of_not_rowCovers (hm : Memory.wf m = true) (h : ¬ rowCovers c row' ys.length a) :
    Memory.read a (writeSamples c row' 0 ys ((writeSamples c row 0 xs (m, 0)).1, 0)).1 =
      Memory.read a (writeSamples c row 0 xs ((writeSamples c row' 0 ys (m, 0)).1, 0)).1 := by
  have hxs := writeSamples_wf (c := c) (row := row) xs 0 m 0 hm
  have hys := writeSamples_wf (c := c) (row := row') ys 0 m 0 hm
  rw [read_writeSamples_of_not_rowCovers hxs h]
  by_cases hcov : rowCovers c row xs.length a
  · exact read_writeSamples_congr hm hys hcov
  · rw [read_writeSamples_of_not_rowCovers hm hcov, read_writeSamples_of_not_rowCovers hys hcov,
      read_writeSamples_of_not_rowCovers hm h]

/-- The loops of two different rows commute: each cell is outside one of the two. -/
theorem writeSamples_comm (hm : Memory.wf m = true) (hne : row ≠ row') :
    (writeSamples c row' 0 ys ((writeSamples c row 0 xs (m, 0)).1, 0)).1 =
      (writeSamples c row 0 xs ((writeSamples c row' 0 ys (m, 0)).1, 0)).1 := by
  refine Memory.ext_of_read (writeSamples_wf _ _ _ _ (writeSamples_wf _ _ _ _ hm))
    (writeSamples_wf _ _ _ _ (writeSamples_wf _ _ _ _ hm)) fun a => ?_
  by_cases hcov : rowCovers c row' ys.length a
  · have hout : ¬ rowCovers c row xs.length a := fun h => hne (row_eq_of_rowCovers h hcov)
    exact (read_writeSamples_comm_of_not_rowCovers hm hout).symm
  · exact read_writeSamples_comm_of_not_rowCovers hm hcov

end

/-- Settles O21: each row is decoded whichever comes first, their sample loops commute, and two rows are counted. -/
theorem differentRowsCommute : Obligations.DifferentRowsCommute := by
  intro r₁ k₁ z₁ r₂ k₂ z₂ p₁ p₂ s hrun hwf hne h₁ h₂
  refine ⟨_, _, _, _, exec_pixelRow_complete hrun h₁, exec_pixelRow_complete (by simpa) (by simpa),
    exec_pixelRow_complete hrun h₂, exec_pixelRow_complete (by simpa) (by simpa), ?working, ?count⟩
  case working =>
    simp only [decodeRow_working, decodeRow_cfg]
    exact writeSamples_comm hwf hne
  case count =>
    rw [decodeRow_rowsWritten, decodeRow_rowsWritten]
    exact completeRow_rowsWritten_congr (by simp) (by rw [decodeRow_rowsWritten, decodeRow_rowsWritten])

end Sys2Proof.Machine

/-! ## The frame assembler

What PUBLISH, ROW_DONE, the two frame markers and ACQUIRE answer (`43_frame_assembler.md` R101 to R113), which
operations notify, and the number of publishes in a stretch of rows (R114). -/

namespace Sys2Proof.Machine

/-! ### A stretch of rows (R114)

Every offer of the stretch adds to one number, the rows counted so far with each notified frame taken for
`ROWS_PER_FRAME` of them: a complete row adds one, whether or not it publishes, and any other offer adds nothing.
The counter and the number of notifications are its remainder and its quotient. -/

/-- The rows counted in `ROWS_WRITTEN`, and `ROWS_PER_FRAME` more for each frame notified. -/
def rowsTaken (s : State) : Nat := s.cfg.rowsPerFrame * s.frameReady.length + s.rowsWritten

theorem rowsTaken_mod {s : State} (h : s.Inv) : rowsTaken s % s.cfg.rowsPerFrame = s.rowsWritten := by
  rw [rowsTaken, Nat.mul_add_mod, Nat.mod_eq_of_lt h.rowsBelow]

theorem rowsTaken_div {s : State} (h : s.Inv) : rowsTaken s / s.cfg.rowsPerFrame = s.frameReady.length := by
  rw [rowsTaken, Nat.mul_add_div h.cfgWf.rowsPos, Nat.div_eq_of_lt h.rowsBelow, Nat.add_zero]

@[simp] theorem rowsTaken_raiseCondition (k : PacketKind) (e : Condition) (s : State) :
    rowsTaken (raiseCondition k e s) = rowsTaken s := rfl

theorem rowsTaken_publishFrame (s : State) :
    rowsTaken (publishFrame s) = s.cfg.rowsPerFrame * (s.frameReady.length + 1) := by simp [rowsTaken]

theorem rowsTaken_countRow {s : State} (h : s.Inv) : rowsTaken (countRow s) = rowsTaken s + 1 := by
  rw [rowsTaken, countRow_rowsWritten, h.wrapWord_succ]
  rfl

/-- ROW_DONE counts the row it completes: as one more, or as the last of the frame it publishes. -/
theorem rowsTaken_completeRow {s : State} (h : s.Inv) : rowsTaken (completeRow s).1 = rowsTaken s + 1 := by
  by_cases hrows : wrapWord s.cfg (s.rowsWritten + 1) = s.cfg.rowsPerFrame
  · have hlast : s.rowsWritten + 1 = s.cfg.rowsPerFrame := h.wrapWord_succ.symm.trans hrows
    rw [completeRow_publishes hrows, rowsTaken_publishFrame, rowsTaken, Nat.add_assoc, hlast]
    exact Nat.mul_succ _ _
  · rw [completeRow_counts hrows, rowsTaken_countRow h]

theorem rowsTaken_decodeRow {s : State} (h : s.Inv) (row : Nat) (xs : List Sample) :
    rowsTaken (decodeRow row xs s) = rowsTaken s + 1 :=
  rowsTaken_completeRow (h.setWorking (writeSamples_isFrame xs h.workingFrame))

/-- A datagram that is neither an FS nor a counted FE stops nothing, and counts a row if it is a complete one. -/
theorem effectOf_inStretch {s : State} {D : Datagram} {i : Instr} (h : s.Inv) (hdec : decode s.cfg D = .ok i)
    (hstart : classify s.cfg D ≠ .frameStart) (hend : classify s.cfg D ≠ .frameEnd) :
    (effectOf i s).runState = s.runState ∧
      rowsTaken (effectOf i s) = rowsTaken s + (isCompleteRow s.cfg D).toNat := by
  have hkind := decode_kind? hdec
  cases i with
  | frameStart _ => exact absurd (Option.some.inj hkind).symm hstart
  | frameEnd _ => exact absurd (Option.some.inj hkind).symm hend
  | unknown _ _ => simp [effectOf, isCompleteRow, hdec]
  | unknownShort _ => simp [effectOf, isCompleteRow, hdec]
  | pixelRow body =>
    cases body with
    | short _ => simp [effectOf, pixelRowEffect, isCompleteRow, hdec]
    | full r k z p =>
      cases htrunc : payloadTruncated s.cfg z p with
      | true => simp [effectOf, pixelRowEffect, isCompleteRow, hdec, htrunc]
      | false => simp [effectOf, pixelRowEffect_complete htrunc, rowsTaken_decodeRow h, isCompleteRow, hdec, htrunc]
  | _ => cases hkind

/-- Every offer of a stretch has a step, after which the block is still `RUNNING`. -/
theorem step_inStretch {s : State} {o : Offer} {rest : List Offer} (h : s.Inv) (hrun : s.runState = .running)
    (hin : s.inputs = o :: rest) (ho : o.inStretch s.cfg = true) :
    ∃ t, step s = .next t ∧ t.runState = .running ∧ rowsTaken t = rowsTaken s + (o.isRow s.cfg).toNat := by
  cases o with
  | datagram D =>
    simp only [Offer.inStretch, Bool.and_eq_true, decide_eq_true_eq, bne_iff_ne] at ho
    obtain ⟨⟨hmax, hstart⟩, hend⟩ := ho
    obtain ⟨i, hdec, -⟩ := decodingIsTotal s.cfg D h.cfgWf hmax
    obtain ⟨hstate, htaken⟩ := effectOf_inStretch h.takeOffer hdec hstart hend
    exact ⟨_, (step_datagram hin hrun hdec).trans (exec_running i hrun), hstate.trans hrun, htaken⟩
  | acquire => exact ⟨_, (step_acquire hin).trans (exec_acquire _), hrun, rfl⟩
  | stop => cases ho
  | close => cases ho
  | reset => cases ho

/-- A step for each offer of a stretch takes the stretch and counts its complete rows. -/
theorem runSteps_inStretch {stretch rest : List Offer} {s : State} (h : s.Inv) (hrun : s.runState = .running)
    (hin : s.inputs = stretch ++ rest) (hstretch : ∀ o ∈ stretch, o.inStretch s.cfg = true) :
    ∃ t, runSteps stretch.length s = .next t ∧ t.inputs = rest ∧ t.runState = .running ∧ t.Inv ∧ t.cfg = s.cfg ∧
      rowsTaken t = rowsTaken s + stretch.countP (fun o => o.isRow s.cfg) := by
  induction stretch generalizing s with
  | nil => exact ⟨s, rfl, hin, hrun, h, rfl, rfl⟩
  | cons o stretch ih =>
    obtain ⟨ho, htail⟩ := List.forall_mem_cons.1 hstretch
    obtain ⟨u, hstep, hrunu, hrow⟩ := step_inStretch h hrun hin ho
    have hcfg := noStepChangesTheParameters s u hstep
    have hinu : u.inputs = stretch ++ rest := by rw [step_inputs hstep, hin, List.cons_append, List.tail_cons]
    obtain ⟨t, hsteps, hint, hrunt, hinvt, hcfgt, hrows⟩ :=
      ih (stepKeepsTheInvariant s u h hstep) hrunu hinu (hcfg ▸ htail)
    refine ⟨t, (runSteps_next hstep).trans hsteps, hint, hrunt, hinvt, hcfgt.trans hcfg, ?_⟩
    rw [hrows, hrow, hcfg, List.countP_cons, Bool.toNat, Bool.cond_eq_ite]
    omega

/-- Settles O48: the stretch adds its complete rows to `rowsTaken`, whose remainder by `ROWS_PER_FRAME` is the counter
and whose quotient is the number of notifications. -/
theorem rowsPublishOncePerFrame : Obligations.RowsPublishOncePerFrame := by
  rintro stretch rest s n h hrun hin hstretch rfl
  obtain ⟨t, hsteps, hint, hrunt, hinvt, hcfg, htaken⟩ := runSteps_inStretch h hrun hin hstretch
  refine ⟨t, hsteps, hint, hrunt, ?count, ?notifications⟩
  case count => rw [← rowsTaken_mod hinvt, htaken, hcfg, rowsTaken, Nat.add_assoc, Nat.mul_add_mod]
  case notifications =>
    rw [← rowsTaken_div hinvt, htaken, hcfg, rowsTaken, Nat.add_assoc, Nat.mul_add_div h.cfgWf.rowsPos]

/-! ### Who notifies, and of what (R106, R113) -/

@[simp] theorem terminate_frameReady (e : Condition) (s : State) : (terminate e s).frameReady = s.frameReady := by
  unfold terminate
  split <;> rfl

/-- Settles O6: PUBLISH's five assignments; the effect of every operation not named leaves the notifications. -/
theorem publishCopiesWorking : Obligations.PublishCopiesWorking := by
  refine ⟨fun s => rfl, fun i s t h hne => ?_⟩
  obtain ⟨-, -, rfl⟩ | ⟨-, rfl⟩ := exec_cases h
  · exact absurd rfl hne
  cases i with
  | publish => exact Or.inl rfl
  | rowDone => exact Or.inr (Or.inl rfl)
  | pixelRow body => exact Or.inr (Or.inr (Or.inl ⟨body, rfl⟩))
  | frameStart g => exact Or.inr (Or.inr (Or.inr (Or.inl ⟨g, rfl⟩)))
  | frameEnd g => exact Or.inr (Or.inr (Or.inr (Or.inr ⟨g, rfl⟩)))
  | stop => exact absurd (terminate_frameReady _ s) hne
  | close => exact absurd (terminate_frameReady _ s) hne
  | unknown _ _ => exact absurd rfl hne
  | unknownShort _ => exact absurd rfl hne
  | acquire => exact absurd rfl hne
  | reset => exact absurd rfl hne
  | convert _ => exact absurd rfl hne

/-- While `PUB_VALID = 1` an ACQUIRE answers `PUBLISHED` (R112). -/
theorem acquireAnswer_of_pubValid {s : State} (h : s.pubValid = true) : acquireAnswer s = s.published := if_pos h

/-- Settles O10: a notification comes with `PUBLISHED` replaced by the frame it carries, which ACQUIRE answers. -/
theorem notificationEqualsNextAcquire : Obligations.NotificationEqualsNextAcquire := by
  refine ⟨fun s => ⟨_, rfl, publishFrame_frameReady s⟩, fun i s t h hne => ?_⟩
  by_cases hi : i = .reset
  · subst hi
    cases h
    exact absurd rfl hne
  · obtain ⟨-, -, hkept⟩ | ⟨hpublished, hvalid, hready, -, -⟩ := PublishedKeptOrReplaced.exec hi h
    · exact absurd hkept hne
    · have hanswer : acquireAnswer t = some t.working := (acquireAnswer_of_pubValid hvalid).trans hpublished
      exact ⟨t.working, hready, by rw [exec_acquire, hanswer]; rfl⟩

/-! ### The operations one by one -/

/-- Settles O3: while `RUNNING` the effect is PUBLISH and the record, with no test of the count. -/
theorem frameStartPublishesAtOnce : Obligations.FrameStartPublishesAtOnce :=
  fun _ _ hrun => exec_running _ hrun

theorem frameEndEffect_enabled {s : State} (h : s.cfg.frameEndEn = true) :
    frameEndEffect s = publishOnMarker .frameEnd s := if_pos h

theorem frameEndEffect_disabled {s : State} (h : s.cfg.frameEndEn = false) :
    frameEndEffect s = raiseCondition .unknown .unknownMarker s := if_neg (by simp [h])

/-- Settles O4: while `RUNNING` the effect is that of a frame marker or that of an UNKNOWN, by `FRAME_END_EN`. -/
theorem frameEndFollowsItsEnable : Obligations.FrameEndFollowsItsEnable := by
  intro g s hrun
  have hexec : exec (.frameEnd g) s = .next (frameEndEffect s) := exec_running _ hrun
  constructor <;> intro hen
  · rw [hexec, frameEndEffect_enabled hen]
    rfl
  · rw [hexec, frameEndEffect_disabled hen]
    rfl

theorem exec_rowDone (s : State) :
    exec .rowDone s = .next (returnSub (.published (completeRow s).2) (completeRow s).1) := rfl

/-- Settles O5: ROW_DONE's two cases, and a sum that is at most `ROWS_PER_FRAME`, which the counter's width holds. -/
theorem rowDoneCountsOrPublishes : Obligations.RowDoneCountsOrPublishes := by
  intro s
  refine ⟨fun heq => ?_, fun hne => ?_, fun hwf hlt => wrapWord_of_lt (Nat.lt_of_le_of_lt hlt hwf.rowsFit)⟩
  · rw [exec_rowDone, completeRow_publishes heq]
    rfl
  · rw [exec_rowDone, completeRow_counts hne]
    rfl

/-- Settles O7: ACQUIRE appends its answer, which `PUB_VALID` decides. -/
theorem acquireReturnsThePublishedFrame : Obligations.AcquireReturnsThePublishedFrame := by
  intro s
  constructor <;> intro hvalid
  · rw [exec_acquire, acquireAnswer_of_not_pubValid hvalid]
    rfl
  · rw [exec_acquire, acquireAnswer_of_pubValid hvalid]
    rfl

end Sys2Proof.Machine

/-! ## Receiver control

DROP of the UNKNOWN datagrams, the termination events, and what a datagram meets in either `RUN_STATE`
(`44_receiver_control.md` R117 to R122). -/

namespace Sys2Proof.Machine

/-! ### DROP (R118) -/

/-- Both UNKNOWN operations have DROP's effect (`60_exceptions.md` R125). -/
theorem effectOf_of_kind?_unknown {i : Instr} (h : i.kind? = some .unknown) (s : State) :
    effectOf i s = raiseCondition .unknown .unknownMarker s := by
  cases i with
  | unknown _ _ => rfl
  | unknownShort _ => rfl
  | _ => cases h

theorem exec_of_kind?_unknown {i : Instr} {s : State} (h : i.kind? = some .unknown) (hrun : s.runState = .running) :
    exec i s = .next (raiseCondition .unknown .unknownMarker s) := by
  rw [exec_running i hrun, effectOf_of_kind?_unknown h]

/-- The length bound is all that decoding asks for; the parameters need not be well-formed. -/
theorem exists_decode_of_length_le {c : Config} {D : Datagram} (hmax : D.length ≤ c.maxDgramLen) :
    ∃ i, decode c D = .ok i := by
  cases h : decode c D with
  | ok i => exact ⟨i, rfl⟩
  | error e => exact absurd hmax (Nat.not_le.2 (maxDgramLen_lt_of_decode_error h))

/-- Settles O24: a datagram decodes to an operation of the kind its classifier gives, and every operation of the kind
UNKNOWN has DROP's effect. -/
theorem unknownDatagramsAreDropped : Obligations.UnknownDatagramsAreDropped := by
  refine ⟨fun _ _ _ _ hrun => ⟨exec_of_kind?_unknown rfl hrun, exec_of_kind?_unknown rfl hrun⟩, ?offered⟩
  case offered =>
    intro s D rest hrun hin hmax hclass
    obtain ⟨i, hdec⟩ := exists_decode_of_length_le hmax
    have hkind : i.kind? = some .unknown := hclass ▸ decode_kind? hdec
    have hrun' : (takeOffer s).runState = .running := hrun
    rw [step_datagram hin hrun hdec, exec_of_kind?_unknown hkind hrun', takeOffer_of_cons hin]
    rfl

/-! ### Who changes `RUN_STATE` (R117) -/

@[simp] theorem pixelRowEffect_runState (body : RowBody) (s : State) :
    (pixelRowEffect body s).runState = s.runState := by
  obtain h | ⟨_, _, _, _, -, -, h⟩ := pixelRowEffect_cases body s <;> simp [h]

@[simp] theorem frameEndEffect_runState (s : State) : (frameEndEffect s).runState = s.runState := by
  unfold frameEndEffect
  split <;> rfl

theorem effectOf_runState (i : Instr) (s : State) :
    (effectOf i s).runState = s.runState ∨ i = .stop ∨ i = .close ∨ i = .reset := by
  cases i with
  | stop => exact Or.inr (Or.inl rfl)
  | close => exact Or.inr (Or.inr (Or.inl rfl))
  | reset => exact Or.inr (Or.inr (Or.inr rfl))
  | pixelRow body => exact Or.inl (pixelRowEffect_runState body s)
  | frameEnd _ => exact Or.inl (frameEndEffect_runState s)
  | rowDone => exact Or.inl (completeRow_runState s)
  | frameStart _ => exact Or.inl rfl
  | unknown _ _ => exact Or.inl rfl
  | unknownShort _ => exact Or.inl rfl
  | acquire => exact Or.inl rfl
  | convert _ => exact Or.inl rfl
  | publish => exact Or.inl rfl

theorem exec_runState {i : Instr} {s t : State} (h : exec i s = .next t) :
    t.runState = s.runState ∨ i = .stop ∨ i = .close ∨ i = .reset := by
  obtain ⟨-, -, rfl⟩ | ⟨-, rfl⟩ := exec_cases h
  · exact Or.inl rfl
  · exact effectOf_runState i s

/-- Settles O28: the inversion of `exec` on `RUN_STATE`; no datagram carries one of the three events. -/
theorem noDatagramChangesRunState : Obligations.NoDatagramChangesRunState := by
  refine fun i s t h => ⟨fun hkind => ?_, (exec_runState h).resolve_left⟩
  obtain hkept | rfl | rfl | rfl := exec_runState h
  · exact hkept
  all_goals cases hkind

/-! ### The termination events (R119, R120, R122) -/

theorem exec_stop (s : State) : exec .stop s = .next (terminate .stopRequested s) := rfl

theorem exec_close (s : State) : exec .close s = .next (terminate .transportClosed s) := rfl

/-- Settles O25: a termination while `RUNNING` is the write of `RUN_STATE` and the record. -/
theorem stopEndsTheLoop : Obligations.StopEndsTheLoop := by
  intro s hrun
  rw [exec_stop, terminate_running hrun]
  rfl

/-- Settles O27: a termination while `STOPPED` leaves the state. -/
theorem repeatedTerminationDoesNothing : Obligations.RepeatedTerminationDoesNothing := by
  intro s hstop
  rw [exec_stop, exec_close, terminate_stopped hstop, terminate_stopped hstop]
  exact ⟨rfl, rfl⟩

/-! ### A datagram while `STOPPED` (R121) -/

theorem exec_datagram_stopped {i : Instr} {s : State} (hstop : s.runState = .stopped)
    (hkind : i.kind?.isSome = true) : exec i s = .next s := by
  rw [exec_stopped i hstop, if_pos hkind]

theorem turnAway_of_cons {s : State} {o : Offer} {rest : List Offer} (h : s.inputs = o :: rest) (D : Datagram) :
    turnAway D s = { s with inputs := rest, held := s.held ++ [D] } := by
  rw [turnAway, h, List.tail_cons]

/-- Settles O29: the operation is left undone, and the datagram offered is turned away. -/
theorem stoppedBlockTakesNoDatagram : Obligations.StoppedBlockTakesNoDatagram := by
  refine ⟨fun i s => exec_datagram_stopped, fun s D rest hstop hin => ?_⟩
  rw [step_turnedAway hin hstop, turnAway_of_cons hin]

end Sys2Proof.Machine

/-! ## Conditions and records

That every operation completes (`60_exceptions.md` R130), the layout of the two record types and the records an
operation puts out (R131, R132), and that nothing put out is read back (R138). -/

namespace Sys2Proof.Machine

/-! ### Waiting, CLOSE, and completion (R128, R130, R142) -/

/-- Settles O30: the law of `step` for no offer. -/
theorem waitingChangesNothing : Obligations.WaitingChangesNothing := fun _ => step_waiting

/-- Settles O26: a termination while `RUNNING` is the write of `RUN_STATE` and the record. -/
theorem closeIsANormalTermination : Obligations.CloseIsANormalTermination := by
  intro s hrun
  rw [exec_close, terminate_running hrun]
  rfl

/-- No operation has a fault or a refusal for an outcome. -/
theorem exists_exec_next (i : Instr) (s : State) : ∃ t, exec i s = .next t := by
  cases hr : s.runState with
  | running => exact ⟨_, exec_running i hr⟩
  | stopped => exact ⟨_, exec_stopped i hr⟩

/-- Settles O32: `exec` answers a state in either `RUN_STATE`; a step has no fault to end in, and a refusal would
need an overlong datagram. -/
theorem everyOperationCompletes : Obligations.EveryOperationCompletes := by
  refine ⟨exists_exec_next, fun s hmax => ?_⟩
  cases h : step s with
  | next t => exact ⟨t, rfl⟩
  | fault f => cases f
  | refused r =>
    obtain ⟨-, -, D, rest, hin, hlong⟩ := (onlyOverlongDatagramsAreRefused s r).1 h
    exact absurd (hmax D rest hin) (Nat.not_le.2 hlong)

/-! ### The layout of a record (R131) -/

/-- Fields side by side, as numbers: the upper one counts in units of the lower one's range. -/
theorem toNat_append_eq_add {m n : Nat} (x : BitVec m) (y : BitVec n) :
    (x ++ y).toNat = x.toNat * 2 ^ n + y.toNat := by
  rw [BitVec.toNat_append, ← Nat.shiftLeft_add_eq_or_of_lt y.isLt, Nat.shiftLeft_eq]

theorem resultRecord_toNat (k : PacketKind) (e : Condition) (p : Bool) (oor : BitVec 32) :
    (resultRecord k e p oor).toNat =
      (kindCode k).toNat * 2 + (conditionCode e).toNat * 8 + (if p then 64 else 0) + oor.toNat * 4294967296 := by
  have hpublished : (BitVec.ofBool p).toNat * 64 = if p then 64 else 0 := by cases p <;> rfl
  simp only [resultRecord, toNat_append_eq_add, BitVec.toNat_ofNat]
  omega

theorem termRecord_toNat (e : Condition) : (termRecord e).toNat = 1 + (conditionCode e).toNat * 8 := by
  simp only [termRecord, toNat_append_eq_add, BitVec.toNat_ofNat]
  omega

/-- Settles O42: the fields side by side, and the codes by evaluation. -/
theorem recordFieldsAreWhereTheLayoutPutsThem : Obligations.RecordFieldsAreWhereTheLayoutPutsThem :=
  ⟨resultRecord_toNat, termRecord_toNat, by decide, by decide⟩

/-! ### The records an operation puts out (R132) -/

/-- The record of a row whose rejected count fits its 32 bits: without the condition exactly when the count is 0. -/
theorem isResultRecord_row {oor : Nat} (h : oor < 2 ^ 32) (p : Bool) :
    IsResultRecord (resultRecord .pixelRow (rowCondition oor) p (BitVec.ofNat 32 oor)) := by
  obtain rfl | hpos := Nat.eq_zero_or_pos oor
  · exact .row p
  · rw [rowCondition, if_pos hpos]
    refine .rowOutOfRange p _ fun hzero => ?_
    have hcount := congrArg BitVec.toNat hzero
    rw [BitVec.toNat_ofNat, Nat.mod_eq_of_lt h] at hcount
    exact hpos.ne' hcount

theorem rejectedCount_le (c : Config) (row n : Nat) : rejectedCount c row n ≤ n := by
  unfold rejectedCount
  split <;> omega

theorem wordRange_le {c : Config} (hc : c.Wf) : c.wordRange ≤ 2 ^ 32 := Nat.pow_le_pow_right (by omega) hc.wordShown

/-- A row rejects at most its own samples, whose number is a word. -/
theorem writeSamples_rejected_lt {c : Config} (hc : c.Wf) {row z : Nat} {p : List Byte} {m : Memory}
    (h : payloadTruncated c z p = false) : (writeSamples c row 0 (rowSamples c z p) (m, 0)).2 < 2 ^ 32 := by
  rw [writeSamples_rejectedCount, rowSamples_length h]
  exact (rejectedCount_le ..).trans_lt ((sampleCount_lt c z).trans_le (wordRange_le hc))

@[simp] theorem completeRow_results (s : State) : (completeRow s).1.results = s.results := by
  unfold completeRow
  split <;> rfl

/-- `t` has put out one record more than `s`, and it is one of the list. -/
def EmitsListed (s t : State) : Prop := ∃ r, t.results = s.results ++ [r] ∧ IsResultRecord r

theorem decodeRow_emitsListed {s : State} {row : Nat} {xs : List Sample}
    (h : (writeSamples s.cfg row 0 xs (s.working, 0)).2 < 2 ^ 32) : EmitsListed s (decodeRow row xs s) :=
  ⟨_, congrArg (· ++ _) (completeRow_results _), isResultRecord_row h _⟩

theorem pixelRowEffect_emitsListed {s : State} (hc : s.cfg.Wf) (body : RowBody) :
    EmitsListed s (pixelRowEffect body s) := by
  obtain h | ⟨r, _, z, p, -, htrunc, h⟩ := pixelRowEffect_cases body s <;> rw [h]
  · exact ⟨_, rfl, .rowTruncated⟩
  · exact decodeRow_emitsListed (writeSamples_rejected_lt hc htrunc)

theorem frameEndEffect_emitsListed (s : State) : EmitsListed s (frameEndEffect s) := by
  unfold frameEndEffect
  split
  · exact ⟨_, rfl, .frameEnd⟩
  · exact ⟨_, rfl, .unknown⟩

theorem effectOf_emitsListed {s : State} (hc : s.cfg.Wf) {i : Instr} (hkind : i.kind?.isSome = true) :
    EmitsListed s (effectOf i s) := by
  cases i with
  | frameStart _ => exact ⟨_, rfl, .frameStart⟩
  | pixelRow body => exact pixelRowEffect_emitsListed hc body
  | frameEnd _ => exact frameEndEffect_emitsListed s
  | unknown _ _ => exact ⟨_, rfl, .unknown⟩
  | unknownShort _ => exact ⟨_, rfl, .unknown⟩
  | _ => cases hkind

theorem terminate_results {s : State} (hrun : s.runState = .running) (e : Condition) :
    (terminate e s).results = s.results ++ [termRecord e] := by
  rw [terminate_running hrun]
  rfl

/-- ACQUIRE, RESET and the sub-operations put out no record, nor does a termination while `STOPPED`. -/
theorem effectOf_results {i : Instr} {s : State} (hkind : i.kind? = none)
    (hquiet : s.runState = .stopped ∨ i ≠ .stop ∧ i ≠ .close) : (effectOf i s).results = s.results := by
  cases i with
  | stop => exact congrArg _ (terminate_stopped (hquiet.resolve_right fun h => h.1 rfl))
  | close => exact congrArg _ (terminate_stopped (hquiet.resolve_right fun h => h.2 rfl))
  | rowDone => exact completeRow_results s
  | acquire => rfl
  | reset => rfl
  | convert _ => rfl
  | publish => rfl
  | _ => cases hkind

/-- Settles O43: while `RUNNING` the record is that of the operation's effect; otherwise the operation is left undone
or its effect has none. -/
theorem emittedRecordsAreTheListedOnes : Obligations.EmittedRecordsAreTheListedOnes := by
  intro i s t h
  have heffect : s.runState = .running → t = effectOf i s := fun hrun =>
    Host.Outcome.next.inj (h.symm.trans (exec_running i hrun))
  refine ⟨fun hc hrun hkind => ?datagram, fun hrun hi => ?stop, fun hrun hi => ?close, fun hquiet => ?quiet⟩
  case datagram => exact heffect hrun ▸ effectOf_emitsListed hc hkind
  case stop => rw [heffect hrun, hi, effectOf, terminate_results hrun]
  case close => rw [heffect hrun, hi, effectOf, terminate_results hrun]
  case quiet =>
    obtain ⟨-, -, rfl⟩ | ⟨hrun, rfl⟩ := exec_cases h
    · rfl
    · refine effectOf_results ?_ (hquiet.imp_right And.right)
      obtain hstop | ⟨hkind, -⟩ := hquiet
      · exact hrun.resolve_left (by simp [hstop])
      · exact hkind

/-! ### Nothing put out is read back (R138)

An operation acts on a state as it acts on the block and the parameters alone, with the state's own offers and outputs
put back around the answer. -/

/-- The block and the parameters of a state, nothing offered to it and nothing put out. -/
def blockOnly (s : State) : State :=
  { State.reset with
    runState := s.runState
    asmState := s.asmState
    rowsWritten := s.rowsWritten
    working := s.working
    published := s.published
    pubValid := s.pubValid
    cfg := s.cfg }

/-- The value handed back, or the one before it where none is. -/
def SubReturn.orBefore : SubReturn → SubReturn → SubReturn
  | .nothing, before => before
  | .cell v, _ => .cell v
  | .published b, _ => .published b

/-- `u` with the offers of `s`, and its outputs put after those of `s`. -/
def afterOutputs (s u : State) : State :=
  { u with
    inputs := s.inputs
    eventIndex := s.eventIndex
    held := s.held
    results := s.results ++ u.results
    frameReady := s.frameReady ++ u.frameReady
    acquired := s.acquired ++ u.acquired
    subReturn := u.subReturn.orBefore s.subReturn }

theorem blockOnly_congr {s s' : State} (h : SameBlock s s') (hcfg : s.cfg = s'.cfg) : blockOnly s = blockOnly s' := by
  obtain ⟨hrun, hasm, hrows, hworking, hpublished, hvalid⟩ := h
  rw [blockOnly, blockOnly, hrun, hasm, hrows, hworking, hpublished, hvalid, hcfg]

theorem afterOutputs_blockOnly (s : State) : afterOutputs s (blockOnly s) = s := by
  simp [afterOutputs, blockOnly, State.reset, SubReturn.orBefore]

theorem pixelRowEffect_truncated {s : State} {r k z : Nat} {p : List Byte}
    (h : payloadTruncated s.cfg z p = true) :
    pixelRowEffect (.full r k z p) s = raiseCondition .pixelRow .truncatedPacket s := if_pos h

section
variable (s u : State)

theorem emitResult_afterOutputs (r : Record) :
    emitResult r (afterOutputs s u) = afterOutputs s (emitResult r u) := by
  simp [emitResult, afterOutputs]

theorem answerAcquire_afterOutputs (f : Option Memory) :
    answerAcquire f (afterOutputs s u) = afterOutputs s (answerAcquire f u) := by
  simp [answerAcquire, afterOutputs]

theorem notifyFrame_afterOutputs (m : Memory) :
    notifyFrame m (afterOutputs s u) = afterOutputs s (notifyFrame m u) := by
  simp [notifyFrame, afterOutputs]

theorem publishFrame_afterOutputs : publishFrame (afterOutputs s u) = afterOutputs s (publishFrame u) :=
  congrArg (fun t => setAsmState .accumulating (clearRows t))
    (notifyFrame_afterOutputs s (swapPublished u.working (setAsmState .publishing u)) u.working)

theorem completeRow_afterOutputs :
    completeRow (afterOutputs s u) = (afterOutputs s (completeRow u).1, (completeRow u).2) := by
  by_cases h : wrapWord u.cfg (u.rowsWritten + 1) = u.cfg.rowsPerFrame
  · rw [completeRow_publishes h, completeRow_publishes (s := afterOutputs s u) h, ← publishFrame_afterOutputs]
    rfl
  · rw [completeRow_counts h, completeRow_counts (s := afterOutputs s u) h]
    rfl

theorem decodeRow_afterOutputs (row : Nat) (xs : List Sample) :
    decodeRow row xs (afterOutputs s u) = afterOutputs s (decodeRow row xs u) := by
  have hset : ∀ m, setWorking m (afterOutputs s u) = afterOutputs s (setWorking m u) := fun _ => rfl
  simp only [decodeRow, hset, completeRow_afterOutputs, ← emitResult_afterOutputs]
  rfl

theorem pixelRowEffect_afterOutputs (body : RowBody) :
    pixelRowEffect body (afterOutputs s u) = afterOutputs s (pixelRowEffect body u) := by
  cases body with
  | short _ => exact emitResult_afterOutputs s u _
  | full r k z p =>
    cases htrunc : payloadTruncated u.cfg z p with
    | true =>
      rw [pixelRowEffect_truncated htrunc, pixelRowEffect_truncated (s := afterOutputs s u) htrunc]
      exact emitResult_afterOutputs ..
    | false =>
      rw [pixelRowEffect_complete htrunc, pixelRowEffect_complete (s := afterOutputs s u) htrunc]
      exact decodeRow_afterOutputs ..

theorem publishOnMarker_afterOutputs (k : PacketKind) :
    publishOnMarker k (afterOutputs s u) = afterOutputs s (publishOnMarker k u) := by
  simp only [publishOnMarker, publishFrame_afterOutputs, emitResult_afterOutputs]

theorem frameEndEffect_afterOutputs : frameEndEffect (afterOutputs s u) = afterOutputs s (frameEndEffect u) := by
  cases hen : u.cfg.frameEndEn with
  | true =>
    rw [frameEndEffect_enabled hen, frameEndEffect_enabled (s := afterOutputs s u) hen]
    exact publishOnMarker_afterOutputs ..
  | false =>
    rw [frameEndEffect_disabled hen, frameEndEffect_disabled (s := afterOutputs s u) hen]
    exact emitResult_afterOutputs ..

theorem terminate_afterOutputs (e : Condition) :
    terminate e (afterOutputs s u) = afterOutputs s (terminate e u) := by
  cases hr : u.runState with
  | running =>
    rw [terminate_running hr, terminate_running (s := afterOutputs s u) hr]
    exact emitResult_afterOutputs s (setRunState .stopped u) _
  | stopped => rw [terminate_stopped hr, terminate_stopped (s := afterOutputs s u) hr]

theorem effectOf_afterOutputs (i : Instr) : effectOf i (afterOutputs s u) = afterOutputs s (effectOf i u) := by
  cases i with
  | frameStart _ => exact publishOnMarker_afterOutputs ..
  | pixelRow body => exact pixelRowEffect_afterOutputs ..
  | frameEnd _ => exact frameEndEffect_afterOutputs ..
  | unknown _ _ => exact emitResult_afterOutputs ..
  | unknownShort _ => exact emitResult_afterOutputs ..
  | stop => exact terminate_afterOutputs ..
  | close => exact terminate_afterOutputs ..
  | acquire => exact answerAcquire_afterOutputs ..
  | reset => rfl
  | convert _ => rfl
  | rowDone => simp only [effectOf, completeRow_afterOutputs]; rfl
  | publish => exact publishFrame_afterOutputs ..

end

theorem exec_afterOutputs {i : Instr} {u t : State} (s : State) (h : exec i u = .next t) :
    exec i (afterOutputs s u) = .next (afterOutputs s t) := by
  cases hr : u.runState with
  | running =>
    rw [exec_running i hr] at h
    cases h
    rw [exec_running i (s := afterOutputs s u) hr, effectOf_afterOutputs]
  | stopped =>
    rw [exec_stopped i hr] at h
    cases h
    rw [exec_stopped i (s := afterOutputs s u) hr, effectOf_afterOutputs, apply_ite (afterOutputs s)]

/-- What the block alone answers says what every state with that block answers. -/
theorem eq_afterOutputs_of_exec {i : Instr} {s t u : State} (hu : exec i (blockOnly s) = .next u)
    (h : exec i s = .next t) : t = afterOutputs s u := by
  have hs := exec_afterOutputs s hu
  rw [afterOutputs_blockOnly, h] at hs
  cases hs
  rfl

/-- Settles O50: both states have one block, whose answer both repeat after their own outputs. -/
theorem outputsAreNeverReadBack : Obligations.OutputsAreNeverReadBack := by
  intro i s s' t t' hblock hcfg h h'
  obtain ⟨u, hu⟩ := exists_exec_next i (blockOnly s)
  obtain rfl := eq_afterOutputs_of_exec hu h
  obtain rfl := eq_afterOutputs_of_exec (blockOnly_congr hblock hcfg ▸ hu) h'
  refine ⟨⟨rfl, rfl, rfl, rfl, rfl, rfl⟩, ⟨u.results, rfl, rfl⟩, ⟨u.frameReady, rfl, rfl⟩,
    ⟨u.acquired, rfl, rfl⟩, ?handedBack⟩
  case handedBack =>
    simp only [afterOutputs]
    cases u.subReturn with
    | nothing => exact Or.inl ⟨rfl, rfl⟩
    | cell _ => exact Or.inr rfl
    | published _ => exact Or.inr rfl

end Sys2Proof.Machine

/-! ## Reset and hazards

What RESET answers in any state (`70_reset_and_hazards.md` R144), and what the interfaces then show. -/

namespace Sys2Proof.Machine

/-- RESET completes in every state, `STOPPED` included (`70_reset_and_hazards.md` R144). -/
theorem exec_reset (s : State) : exec .reset s = .next (resetBlock s) := rfl

/-- An ACQUIRE taken while `PUB_VALID = 0` hands over `NULL` and changes nothing else (`43_frame_assembler.md` R112). -/
theorem exec_acquire_of_not_pubValid {s : State} (h : s.pubValid = false) :
    exec .acquire s = .next { s with acquired := s.acquired ++ [none] } := by
  rw [exec_acquire, acquireAnswer_of_not_pubValid h]
  rfl

/-- Settles O2: the answer is `resetBlock`'s, whose `WORKING` lists no cell, whose counter is 0 and whose `PUB_VALID`
is 0, which is all that the reads, `ROWS` and ACQUIRE depend on. -/
theorem resetEventSetsEveryElement : Obligations.ResetEventSetsEveryElement := by
  intro s
  have hblack : ∀ a, Memory.read a (resetBlock s).working = 0x000000 := Memory.read_nil
  have hrows : rowsView (resetBlock s) = 0 := rowsView_of_rowsWritten_zero (resetBlock_rowsWritten s)
  have hnull := exec_acquire_of_not_pubValid (resetBlock_pubValid s)
  exact ⟨resetBlock s, exec_reset s, rfl, hblack, hrows, hnull⟩

end Sys2Proof.Machine
